-- ==== Sys2Proof/Word.lean ====
section
/-! DEFINITION. The unit of the block's two character spaces (00_scope.md R9): a character is a byte,
a string is a finite sequence of bytes. -/

namespace Sys2Proof

/-- R9: an unsigned 8-bit integer; the block's characters are bytes. -/
abbrev Byte := BitVec 8

/-- R9: a string is a finite sequence of bytes, the first at index 0. -/
abbrev Text := List Byte

end Sys2Proof
end

