-- ==== Sys2Proof/Syntax.lean ====
section
/-! DEFINITION. The operations (spec/opcode_table.json, one constructor a row) and the language of the
tables that configure the block: payload layouts (43_field_parser.md R91) and the alarm table
(45_alarm_mapper.md R120, R121). -/

namespace Sys2Proof

/-- The nine operations of 30_encoding.md R63. An operation has no operand fields: its operands are
registers (10_state.md R16). -/
inductive Instr where
  | pchk
  | lchk
  | encode
  | validate
  | decodeSys
  | decodeMfr
  | decodeCap
  | decodeRt
  | alarmMap
  deriving DecidableEq, Repr, Inhabited

/-- The names that index the result files `T` and `S` (R22, R23). The named ones are those the rules
of 44_telemetry_decoders.md use (R108, R110, R115) and the three likely ones of R113, capacity and the
charged and discharged energy, which no rule requires of a layout; `other` stands for any further name a
layout gives a field (R108 "any further fields", R113 "the field list from the layout"). -/
inductive FieldName where
  | cellCount | chgLimit
  | hwType | product | project | fw
  | soc | volt | curr | temp1 | temp2 | temp3 | temp4 | temp5 | cap | cycles
  | vstat | cstat | tstat | wstat | fetst
  | capacity | chgEnergy | dsgEnergy
  | other (id : Nat)
  deriving DecidableEq, Repr, Inhabited

/-- The kinds of field of R91: unsigned number, signed 16-bit number, text, firmware version. -/
inductive FieldKind where
  | u
  | s16
  | text
  | ver
  deriving DecidableEq, Repr, Inhabited

/-- A field descriptor (R91); `off` counts characters from the end of the prefix. -/
structure FieldDesc where
  name : FieldName
  off : Nat
  width : Nat
  kind : FieldKind
  div : Nat
  deriving DecidableEq, Repr, Inhabited

/-- A repeat group (R91): element `i` is an unsigned field of `width` characters at
`base + i * width`. -/
structure RepGroup where
  base : Nat
  width : Nat
  div : Nat
  max : Nat
  deriving DecidableEq, Repr, Inhabited

/-- A layout (R91): the characters to skip, the fields, and at most one repeat group. -/
structure Layout where
  skip : Nat
  fields : List FieldDesc
  rep : Option RepGroup
  deriving DecidableEq, Repr, Inhabited

/-- The 14 alarm categories of R120, in index order. -/
inductive Category where
  | highPackVolt | lowPackVolt | lowCellVolt | lowSoc | highChgCurr | highDsgCurr | cellImbalance
  | internalFailure | highChgTemp | lowChgTemp | highTemp | lowTemp | highIntTemp | fuseBlown
  deriving DecidableEq, Repr, Inhabited

/-- R120's list: index 0 first. -/
def Category.all : List Category :=
  [.highPackVolt, .lowPackVolt, .lowCellVolt, .lowSoc, .highChgCurr, .highDsgCurr, .cellImbalance,
   .internalFailure, .highChgTemp, .lowChgTemp, .highTemp, .lowTemp, .highIntTemp, .fuseBlown]

/-- The status register that governs a category (R121): voltage, current, temperature, warning. -/
inductive AlarmReg where
  | v
  | c
  | t
  | w
  deriving DecidableEq, Repr, Inhabited

/-- A row of `ALARM_TABLE` (R121). -/
structure AlarmRow where
  cat : Category
  reg : AlarmReg
  pmask : BitVec 16
  wmask : BitVec 16
  deriving DecidableEq, Repr, Inhabited

/-- R8, R101: the default of `FW_SEP`, the string `.`. -/
def fwSepDefault : Text := [0x2E]

/-- R58: the one status code to which the source gives both a value and a name. -/
def statusNameDefault : List (Byte × String) := [(0x00, "success")]

/-- The OPEN parameters of 00_scope.md R8, before any check of their constraints. `fwSep` has the default
of R8. `statusName` is diagnostic only and no rule reads it (R58); what it holds where nothing else is
said, the name of 0x00 alone, is assumption 16. -/
structure Params where
  layoutSys : Layout
  layoutMfr : Layout
  layoutCap : Layout
  layoutRt : Layout
  minLenSys : Nat
  minLenMfr : Nat
  minLenCap : Nat
  minLenRt : Nat
  alarmTable : List AlarmRow
  fetChgBit : Fin 8
  fetDsgBit : Fin 8
  fwSep : Text := fwSepDefault
  statusName : List (Byte × String) := statusNameDefault
  deriving DecidableEq, Repr, Inhabited

/-- R58: the name of a status code, if the table has one. -/
def Params.statusNameOf (p : Params) (code : Byte) : Option String := p.statusName.lookup code

end Sys2Proof
end

