-- ==== Sys2Proof/WellFormed.lean ====
section
/-! DEFINITION. The checks the spec puts on an operation code (R16, R63) and on every OPEN parameter:
43_field_parser.md R91, R92; 44_telemetry_decoders.md R108, R110, R113, R115; 45_alarm_mapper.md R121,
R123, R124; 30_encoding.md R58; with the constants of 00_scope.md R6 that they use. The model takes only
parameters that meet them (93_implementation_defined.md U8). -/

namespace Sys2Proof

/-! ## The constants of R6 that bind a layout -/

/-- R6: the characters of the command-echo prefix of the two B0-family payloads. -/
def prefixLen : Nat := 12

/-- R6: the most cells `DECODE_RT` delivers. -/
def maxCells : Nat := 16

/-- R6: the divisor of the state of charge. -/
def socDiv : Nat := 100

/-- R6: the divisor of the pack voltage. -/
def packVoltDiv : Nat := 100

/-- R6: the divisor of a capacity. -/
def capacityDiv : Nat := 100

/-- R6: the divisor of a temperature. -/
def temperatureDiv : Nat := 10

/-- R6: the divisor of an energy. -/
def energyDiv : Nat := 10

/-- R6: the divisor of a cell voltage. -/
def cellVoltDiv : Nat := 1000

/-- R6: the divisor of the quantity that a name stands for, where the source gives one (R113, R115;
assumption 15). -/
def FieldName.divisor : FieldName → Option Nat
  | .soc => some socDiv
  | .volt => some packVoltDiv
  | .cap => some capacityDiv
  | .capacity => some capacityDiv
  | .temp1 => some temperatureDiv
  | .temp2 => some temperatureDiv
  | .temp3 => some temperatureDiv
  | .temp4 => some temperatureDiv
  | .temp5 => some temperatureDiv
  | .chgEnergy => some energyDiv
  | .dsgEnergy => some energyDiv
  | .cellCount => none
  | .chgLimit => none
  | .hwType => none
  | .product => none
  | .project => none
  | .fw => none
  | .curr => none
  | .cycles => none
  | .vstat => none
  | .cstat => none
  | .tstat => none
  | .wstat => none
  | .fetst => none
  | .other _ => none

/-! ## The checks -/

/-- R16: the legal values of `OP` are 0x1 to 0x9; 0x0 and 0xA to 0xF are reserved (R64). -/
def legalOp (op : BitVec 4) : Bool := decide (1 ≤ op.toNat ∧ op.toNat ≤ 9)

/-- R92 (a) to (c): the widths a field of each kind may have. -/
def FieldDesc.widthOk (f : FieldDesc) : Bool :=
  match f.kind with
  | .u => decide (1 ≤ f.width ∧ f.width ≤ 8)
  | .s16 => decide (f.width = 4)
  | .text => decide (2 ≤ f.width ∧ f.width % 2 = 0)
  | .ver => decide (2 ≤ f.width ∧ f.width % 2 = 0)

/-- R92 (d). -/
def FieldDesc.divOk (f : FieldDesc) : Bool := decide (1 ≤ f.div)

/-- R6, R91: a number under a name whose divisor the source gives has that divisor; the other kinds
ignore theirs (assumption 15). -/
def FieldDesc.divisorOk (f : FieldDesc) : Bool :=
  decide (f.kind = .u ∨ f.kind = .s16 → ∀ d, f.name.divisor = some d → f.div = d)

/-- R92 (f). -/
def RepGroup.ok (g : RepGroup) : Bool :=
  decide (1 ≤ g.width ∧ g.width ≤ 8 ∧ 1 ≤ g.div ∧ g.max ≤ maxCells)

/-- R91: the fields of a layout have distinct names. -/
def Layout.namesDistinct (y : Layout) : Bool := decide (y.fields.map (·.name)).Nodup

/-- R92 (e). -/
def Layout.skipOk (y : Layout) : Bool := decide (y.skip = 0 ∨ y.skip = prefixLen)

/-- R92 (g): the minimum length covers every fixed field and reaches the start of the repeat group. -/
def Layout.minLenOk (y : Layout) (minLen : Nat) : Bool :=
  y.fields.all (fun f => decide (y.skip + f.off + f.width ≤ minLen)) &&
    (match y.rep with
     | none => true
     | some g => decide (y.skip + g.base ≤ minLen))

/-- R92, with the divisors of R6: a layout is well formed with its decoder's minimum length. -/
def Layout.wf (y : Layout) (minLen : Nat) : Bool :=
  y.namesDistinct && y.skipOk && y.fields.all (fun f => f.widthOk && f.divOk && f.divisorOk) &&
    (match y.rep with
     | none => true
     | some g => g.ok) &&
    y.minLenOk minLen

/-- `y` has a field of this name, and it passes `p`. -/
def Layout.hasField (y : Layout) (name : FieldName) (p : FieldDesc → Bool) : Bool :=
  y.fields.any (fun f => decide (f.name = name) && p f)

/-- A field of kind `k`. -/
def FieldDesc.isKind (k : FieldKind) (f : FieldDesc) : Bool := decide (f.kind = k)

/-- A field of kind `k` with divisor `d`. -/
def FieldDesc.isScaled (k : FieldKind) (d : Nat) (f : FieldDesc) : Bool :=
  decide (f.kind = k ∧ f.div = d)

/-- R97: a register field, of kind `U` with `div` = 1 and a fixed width. -/
def FieldDesc.isRegister (w : Nat) (f : FieldDesc) : Bool :=
  decide (f.kind = .u ∧ f.width = w ∧ f.div = 1)

/-- R108, the constraints on `LAYOUT_SYS`. -/
def Layout.sysOk (y : Layout) : Bool :=
  decide (y.skip = 0) && decide (y.rep = none) &&
    y.hasField .cellCount (FieldDesc.isScaled .u 1) &&
    y.hasField .chgLimit (fun f => f.isKind .u || f.isKind .s16)

/-- R110, the constraints on `LAYOUT_MFR`: exactly four fields. -/
def Layout.mfrOk (y : Layout) : Bool :=
  decide (y.skip = prefixLen) && decide (y.rep = none) && decide (y.fields.length = 4) &&
    y.hasField .hwType (FieldDesc.isKind .text) && y.hasField .product (FieldDesc.isKind .text) &&
    y.hasField .project (FieldDesc.isKind .text) && y.hasField .fw (FieldDesc.isKind .ver)

/-- R113, the constraints on `LAYOUT_CAP`. -/
def Layout.capOk (y : Layout) : Bool :=
  decide (y.skip = prefixLen) && decide (y.rep = none) && y.fields.all (FieldDesc.isKind .u)

/-- R115, the constraints on `LAYOUT_RT`. -/
def Layout.rtOk (y : Layout) : Bool :=
  decide (y.skip = 0) &&
    (match y.rep with
     | none => false
     | some g => decide (g.div = cellVoltDiv ∧ g.max = maxCells)) &&
    y.hasField .soc (FieldDesc.isScaled .u socDiv) &&
    y.hasField .volt (FieldDesc.isScaled .u packVoltDiv) &&
    y.hasField .curr (FieldDesc.isKind .s16) &&
    y.hasField .temp1 (FieldDesc.isScaled .s16 temperatureDiv) &&
    y.hasField .temp2 (FieldDesc.isScaled .s16 temperatureDiv) &&
    y.hasField .temp3 (FieldDesc.isScaled .s16 temperatureDiv) &&
    y.hasField .temp4 (FieldDesc.isScaled .s16 temperatureDiv) &&
    y.hasField .temp5 (FieldDesc.isScaled .s16 temperatureDiv) &&
    y.hasField .cap (FieldDesc.isScaled .u capacityDiv) && y.hasField .cycles (FieldDesc.isKind .u) &&
    y.hasField .vstat (FieldDesc.isRegister 4) && y.hasField .cstat (FieldDesc.isRegister 4) &&
    y.hasField .tstat (FieldDesc.isRegister 4) && y.hasField .wstat (FieldDesc.isRegister 4) &&
    y.hasField .fetst (FieldDesc.isRegister 2)

/-- R121: exactly 14 rows, one for each category. -/
def rowsComplete (rows : List AlarmRow) : Bool :=
  decide (rows.length = 14) && Category.all.all (fun c => rows.any (fun r => decide (r.cat = c)))

/-- R121 (b): `HIGH_PACK_VOLT` is governed by the voltage register and bit 0 is in its `pmask`. -/
def AlarmRow.packVoltOk (r : AlarmRow) : Bool :=
  decide (r.cat = .highPackVolt → r.reg = .v ∧ r.pmask.getLsbD 0 = true)

/-- R121 (c): within a row the two masks are disjoint. -/
def AlarmRow.masksDisjoint (r : AlarmRow) : Bool := decide (r.pmask &&& r.wmask = 0)

/-- R123: the bits of the `INTERNAL_FAILURE` row are bits that no other row with the same register
has in a mask. -/
def failureBitsOwn (rows : List AlarmRow) : Bool :=
  rows.all (fun f => rows.all (fun r =>
    decide (f.cat = .internalFailure → r.cat ≠ .internalFailure → r.reg = f.reg →
      (f.pmask ||| f.wmask) &&& (r.pmask ||| r.wmask) = 0)))

/-- R121 and R123 together. -/
def tableOk (rows : List AlarmRow) : Bool :=
  rowsComplete rows && rows.all (fun r => r.packVoltOk && r.masksDisjoint) && failureBitsOwn rows

/-- R124: the two FET bit numbers are different. -/
def Params.fetBitsOk (p : Params) : Bool := decide (p.fetChgBit ≠ p.fetDsgBit)

/-- R58: `STATUS_NAME` is a map, so no code has two names, and it gives 0x00 the source's name
(assumption 16). -/
def Params.statusNameOk (p : Params) : Bool :=
  decide (p.statusName.map (·.1)).Nodup && decide (p.statusNameOf 0x00 = some "success")

/-- All the constraints on the OPEN parameters (R8). `fwSep` may be any byte string. -/
def Params.wf (p : Params) : Bool :=
  p.layoutSys.wf p.minLenSys && p.layoutSys.sysOk &&
    (p.layoutMfr.wf p.minLenMfr && p.layoutMfr.mfrOk) &&
    (p.layoutCap.wf p.minLenCap && p.layoutCap.capOk) &&
    (p.layoutRt.wf p.minLenRt && p.layoutRt.rtOk) &&
    tableOk p.alarmTable && p.fetBitsOk && p.statusNameOk

end Sys2Proof
end

