-- ==== Sys2Proof/Decode.lean ====
section
/-! DEFINITION. The decoder of the 4-bit `OP` (30_encoding.md R63, R64), the encoder, and the table's
numbering of the same four bits. -/

namespace Sys2Proof

/-- Why an operation code is no operation. -/
inductive DecodeError where
  /-- R64: 0x0 and 0xA to 0xF are reserved. -/
  | reservedOp (op : BitVec 4)
  deriving DecidableEq, Repr

/-- R63: the operation an `OP` value selects; R64: the others are reserved. -/
def decode (op : BitVec 4) : Except DecodeError Instr :=
  match op.toNat with
  | 0x1 => .ok .pchk
  | 0x2 => .ok .lchk
  | 0x3 => .ok .encode
  | 0x4 => .ok .validate
  | 0x5 => .ok .decodeSys
  | 0x6 => .ok .decodeMfr
  | 0x7 => .ok .decodeCap
  | 0x8 => .ok .decodeRt
  | 0x9 => .ok .alarmMap
  | _ => .error (.reservedOp op)

/-- R63: the `OP` code of an operation. -/
def encode : Instr → BitVec 4
  | .pchk => 0x1
  | .lchk => 0x2
  | .encode => 0x3
  | .validate => 0x4
  | .decodeSys => 0x5
  | .decodeMfr => 0x6
  | .decodeCap => 0x7
  | .decodeRt => 0x8
  | .alarmMap => 0x9

/-- The value of `OP` that a table word sets: the register has bits 3:0 and no others (R16, R63;
assumption 6). -/
def opOfTableWord (nbits w : Nat) : BitVec 4 := BitVec.ofNat 4 (w % 2 ^ nbits)

/-- The operation the decoder reads from a word of spec/opcode_table.json. -/
def decodeTableWord (nbits w : Nat) : Option Instr :=
  match decode (opOfTableWord nbits w) with
  | .ok i => some i
  | .error _ => none

end Sys2Proof
end

