-- ==== Sys2Proof/Config.lean ====
section
/-! DEFINITION. What is fixed for the machine: the constants of 00_scope.md R6 and R7 (those that bind a
layout are in WellFormed.lean), and the OPEN parameters of R8 as a configuration that carries the proof of
its constraints. -/

namespace Sys2Proof

/-- R6: the start marker `~`. -/
def soi : Byte := 0x7E

/-- R6: the terminator, a carriage return. -/
def eoi : Byte := 0x0D

/-- R6, R50: the protocol-version literal, the two characters `22`. -/
def verText : Text := [0x32, 0x32]

/-- R6: the success value of the status code. -/
def statusOk : Nat := 0

/-- R6: the characters before INFO: SOI, VER, ADDR, CID1, CID2, LEN. -/
def hdrLen : Nat := 13

/-- R6: the characters of CHK. -/
def trailerLen : Nat := 4

/-- R6: the largest count 12 bits hold. -/
def lenIdMax : Nat := 4095

/-- R7: the capacity of `IN`, 13 + 4095 + 4 + 1. -/
def inCap : Nat := 4113

/-- R7: the capacity of `OUT`. -/
def outCap : Nat := 4113

/-- R7: the whitespace bytes stripped from text (R99). -/
def wsBytes : List Byte := [0x09, 0x0A, 0x0B, 0x0C, 0x0D, 0x20]

/-- The test fixture of 95_test_vectors.md section 3: the spec's own values, not the device's. No rule
uses them; here they show that the constraints can be met, and the tests use them. Section 3 gives no
`STATUS_NAME`: the fixture's, the name of 0x00 alone (R58), is the model's choice (assumption 16). -/
def Params.fixture : Params where
  layoutSys := ⟨0, [⟨.cellCount, 0, 2, .u, 1⟩, ⟨.chgLimit, 2, 4, .u, 100⟩], none⟩
  layoutMfr := ⟨12, [⟨.hwType, 0, 20, .text, 1⟩, ⟨.product, 20, 20, .text, 1⟩,
    ⟨.project, 40, 20, .text, 1⟩, ⟨.fw, 60, 6, .ver, 1⟩], none⟩
  layoutCap := ⟨12, [⟨.capacity, 0, 4, .u, 100⟩, ⟨.chgEnergy, 4, 8, .u, 10⟩,
    ⟨.dsgEnergy, 12, 8, .u, 10⟩], none⟩
  layoutRt := ⟨0, [⟨.soc, 0, 4, .u, 100⟩, ⟨.volt, 4, 4, .u, 100⟩, ⟨.curr, 8, 4, .s16, 100⟩,
    ⟨.temp1, 12, 4, .s16, 10⟩, ⟨.temp2, 16, 4, .s16, 10⟩, ⟨.temp3, 20, 4, .s16, 10⟩,
    ⟨.temp4, 24, 4, .s16, 10⟩, ⟨.temp5, 28, 4, .s16, 10⟩, ⟨.cap, 32, 4, .u, 100⟩,
    ⟨.cycles, 36, 4, .u, 1⟩, ⟨.vstat, 40, 4, .u, 1⟩, ⟨.cstat, 44, 4, .u, 1⟩,
    ⟨.tstat, 48, 4, .u, 1⟩, ⟨.wstat, 52, 4, .u, 1⟩, ⟨.fetst, 56, 2, .u, 1⟩],
    some ⟨58, 4, 1000, 16⟩⟩
  minLenSys := 6
  minLenMfr := 78
  minLenCap := 32
  minLenRt := 58
  alarmTable := [⟨.highPackVolt, .v, 0x0001, 0x0002⟩, ⟨.lowPackVolt, .v, 0x0004, 0x0008⟩,
    ⟨.lowCellVolt, .v, 0x0010, 0x0020⟩, ⟨.lowSoc, .w, 0x0001, 0x0002⟩,
    ⟨.highChgCurr, .c, 0x0001, 0x0002⟩, ⟨.highDsgCurr, .c, 0x0004, 0x0008⟩,
    ⟨.cellImbalance, .v, 0x0040, 0x0080⟩, ⟨.internalFailure, .w, 0x0000, 0xFFF8⟩,
    ⟨.highChgTemp, .t, 0x0001, 0x0002⟩, ⟨.lowChgTemp, .t, 0x0004, 0x0008⟩,
    ⟨.highTemp, .t, 0x0010, 0x0020⟩, ⟨.lowTemp, .t, 0x0040, 0x0080⟩,
    ⟨.highIntTemp, .t, 0x0100, 0x0200⟩, ⟨.fuseBlown, .w, 0x0004, 0x0000⟩]
  fetChgBit := 0
  fetDsgBit := 1
  fwSep := fwSepDefault
  statusName := statusNameDefault

/-- A configuration: the OPEN parameters of R8 with the proof that they meet their constraints. The
defaults only serve to show that the type has a value; `Config.device` has no body. -/
structure Config where
  params : Params := Params.fixture
  meets : params.wf = true := by decide
  deriving DecidableEq, Repr, Inhabited

/-- The fixture as a configuration, for tests. -/
def Config.fixture : Config := { params := Params.fixture, meets := by decide }

/-- The configuration of the device. The source gives none of these values (R8), so it is a constant
without a body: nothing can be proved of it but what its type says, the constraints of R8. -/
opaque Config.device : Config

end Sys2Proof
end

