-- ==== Sys2Proof/Machine/State.lean ====
section
/-! DEFINITION. The state of the block (10_state.md, 20_memory.md section 1), as plain data: the operand
registers, the `IN` space, the results of the last step, `RESULT` and `RINFO`, the identity cache. -/

namespace Sys2Proof.Machine

open Sys2Proof

/-- A character space (R32): (address, byte) pairs, addresses strictly rising; an unlisted address holds
no value (assumption 3). -/
abbrev Memory := List Host.Cell

/-- An entry of `T` or `CELLV` (R22, R23): the exact value is `raw / div` and is never divided (R96). -/
structure Scaled where
  raw : Int
  div : Nat
  deriving DecidableEq, Repr, Inhabited

/-- The alarm levels (R24, R122). The 2-bit value 3 is never written, so it has no constructor. -/
inductive Level where
  | normal
  | warning
  | protection
  deriving DecidableEq, Repr, Inhabited

/-- The four strings of the identity cache (R26). -/
structure Identity where
  hwType : Text
  product : Text
  project : Text
  fw : Text
  deriving DecidableEq, Repr, Inhabited

/-- The operand registers of R16; the host writes them and the block only reads them. `CELLS_KNOWN`,
one bit wide, is a Bool. -/
structure Operands where
  op : BitVec 4
  addr : BitVec 8
  cid1 : BitVec 8
  cid2 : BitVec 8
  len12 : BitVec 12
  inLen : BitVec 13
  cells : BitVec 5
  cellsKnown : Bool
  vstat : BitVec 16
  cstat : BitVec 16
  tstat : BitVec 16
  wstat : BitVec 16
  fetst : BitVec 8
  chgMax : BitVec 32
  dsgMax : BitVec 32
  deriving DecidableEq, Repr, Inhabited

/-- The result registers of R19, the result files of R22 to R24 and the space `OUT`. Each holds a value
only after an OK step that writes it and holds none otherwise (R20): that absence is the spec's own
state, an `Option` for a register, a missing entry for a file or for `OUT`. -/
structure Results where
  chk16 : Option (BitVec 16)
  len16 : Option (BitVec 16)
  outLen : Option (BitVec 13)
  chgEn : Option Bool
  dsgEn : Option Bool
  chgLim : Option (BitVec 32)
  dsgLim : Option (BitVec 32)
  ncellv : Option (BitVec 5)
  tFile : List (FieldName × Scaled)
  sFile : List (FieldName × Text)
  cellv : List Scaled
  aFile : List (Category × Level)
  out : Memory
  deriving DecidableEq, Repr, Inhabited

/-- R20: no result holds a value. -/
def Results.empty : Results where
  chk16 := none
  len16 := none
  outLen := none
  chgEn := none
  dsgEn := none
  chgLim := none
  dsgLim := none
  ncellv := none
  tFile := []
  sFile := []
  cellv := []
  aFile := []
  out := []

/-- The machine. `cfg` is not state of the block but the parameter of its step relation (R29): it is
carried here because the step takes the state alone, and nothing writes it (R46, assumption 1).
`mid` is the cache `MID` (R26): `MID.valid` is 1 exactly when it is `some`, so that the four strings
hold no value while `MID.valid` is 0. `faultSeen` is the sticky bit that R139 lets a model keep
(assumption 5): it is set by a step that ends FAULT and read by no operation. -/
structure State where
  cfg : Config
  operands : Operands
  inMem : Memory
  results : Results
  result : BitVec 8
  rinfo : BitVec 8
  mid : Option Identity
  faultSeen : Bool
  deriving DecidableEq, Repr

/-- Why a run of the model stops where the spec gives the machine no defined behaviour. Every failure
that the spec defines, a REJECT or a FAULT, is a next state (R137), never one of these. -/
inductive Fault where
  /-- Raised by an operation that reads `IN` when the host has not written every character below
  `IN_LEN` (R150 (3), U4: such an operand "holds no value"). Safe: the model stops where the spec
  defines no result. -/
  | inHoldsNoValue
  /-- Raised by the host action that loads `IN` with a string longer than `IN_CAP` (R32): there are no
  such addresses. Safe. -/
  | beyondInCap
  /-- Raised by the host action that copies `OUT` to `IN` while `OUT` holds no value (R20, R153).
  Safe. -/
  | outHoldsNoValue
  deriving DecidableEq, Repr

/-- Why the model gives a step no meaning. -/
inductive Refusal where
  /-- Raised by `exec` alone, for an operation that has no meaning in the model yet. Safe. -/
  | notModelled (mnemonic : String)
  /-- Raised by `DECODE_MFR` and `DECODE_RT` if the decoded layout lacks a field that R110 or R115
  requires (U8: a layout that is not well formed is refused). The type `Config` rules this out:
  Sys2Proof/Laws/Layouts.lean proves it (assumption 9). Safe. -/
  | layoutLacksField
  deriving DecidableEq, Repr

/-- The operand registers after reset. R28 gives them no value; the model names zero (assumption 2;
DESIGN CHOICE, unsafe). -/
def Operands.reset : Operands where
  op := 0
  addr := 0
  cid1 := 0
  cid2 := 0
  len12 := 0
  inLen := 0
  cells := 0
  cellsKnown := false
  vstat := 0
  cstat := 0
  tstat := 0
  wstat := 0
  fetst := 0
  chgMax := 0
  dsgMax := 0

/-- R28, R147: after reset `MID.valid` is 0 and no result, no character of `IN` or `OUT` holds a value.
`RESULT` and `RINFO`, to which R28 gives no value before the first step, are zero (assumption 2;
DESIGN CHOICE, unsafe). The configuration is the device's (R149). -/
def State.reset : State where
  cfg := Config.device
  operands := Operands.reset
  inMem := []
  results := Results.empty
  result := 0
  rinfo := 0
  mid := none
  faultSeen := false

end Sys2Proof.Machine
end

