-- ==== Sys2Proof/Machine/Ops.lean ====
section
/-! DEFINITION. The named operations over the state: strings and hexadecimal digits (00_scope.md R10,
R11), the character spaces (20_memory.md), the result codes (60_exceptions.md R130), and how a step ends
(R20, R129, R137), which is the only exception entry this hardware has. -/

namespace Sys2Proof.Machine

open Sys2Proof

/-! ## Strings and digits -/

/-- R10: the `n` bytes of `s` from `off` on. R10 defines it when they all stand in `s`; past the end the
model's function gives fewer bytes, and no operation reads there (assumption 8). -/
def sub (s : Text) (off n : Nat) : Text := (s.drop off).take n

/-- R11: the value of a hexadecimal digit, either case; `none` where `ishex` is false. -/
def hexVal (c : Byte) : Option Nat :=
  if 0x30 ≤ c.toNat ∧ c.toNat ≤ 0x39 then some (c.toNat - 0x30)
  else if 0x41 ≤ c.toNat ∧ c.toNat ≤ 0x46 then some (c.toNat - 0x41 + 10)
  else if 0x61 ≤ c.toNat ∧ c.toNat ≤ 0x66 then some (c.toNat - 0x61 + 10)
  else none

/-- R11: true for the 22 hexadecimal digits. -/
def isHex (c : Byte) : Bool := (hexVal c).isSome

/-- R77 (c): the digits the encoder takes, `0`..`9` and `A`..`F`. -/
def isUpperHex (c : Byte) : Bool :=
  decide ((0x30 ≤ c.toNat ∧ c.toNat ≤ 0x39) ∨ (0x41 ≤ c.toNat ∧ c.toNat ≤ 0x46))

/-- The digit fold of `parsehex`, from a value already read. -/
def parseHexFrom : Nat → Text → Option Nat
  | acc, [] => some acc
  | acc, c :: cs =>
    match hexVal c with
    | none => none
    | some d => parseHexFrom (acc * 16 + d) cs

/-- R11: `parsehex`, the first digit the most significant; `none` is `BAD`. R11 defines it for one
character or more, and no rule applies it to fewer (assumption 8). -/
def parseHex (s : Text) : Option Nat := parseHexFrom 0 s

/-- R11: the uppercase digit of a value 0 to 15. Above 15, where R11 defines none, the model's function
goes on past `F`, and no operation asks for it (assumption 8). -/
def hexDig (v : Nat) : Byte :=
  if v < 10 then BitVec.ofNat 8 (0x30 + v) else BitVec.ofNat 8 (0x41 + (v - 10))

/-- R11: `hexN(v)`, exactly `n` uppercase digits, the most significant first. R11 defines it for `v` below
16 to the power `n`; of a larger value the model's function keeps the low `n` digits, and no operation
renders one (assumption 8). -/
def hexStr : Nat → Nat → Text
  | 0, _ => []
  | n + 1, v => hexStr n (v / 16) ++ [hexDig (v % 16)]

/-- R10: `sext_16`. R10 defines it below 65536; from a larger value the model's function subtracts 65536
as well, and no operation reaches one (assumption 8). -/
def sext16 (v : Nat) : Int := if v < 32768 then (v : Int) else (v : Int) - 65536

/-! ## The character spaces -/

/-- What an address that is not listed reads as: no value (R32; assumption 3). -/
def Memory.unlisted : Option Byte := none

/-- Reading one character. -/
def Memory.read (m : Memory) (a : Nat) : Option Byte :=
  match m.lookup a with
  | some b => some b
  | none => Memory.unlisted

/-- Writing one character; the list stays in rising order. -/
def Memory.write : Memory → Nat → Byte → Memory
  | [], a, b => [(a, b)]
  | (x, c) :: m, a, b =>
    if a < x then (a, b) :: (x, c) :: m
    else if a = x then (a, b) :: m
    else (x, c) :: Memory.write m a b

/-- R12: `MemWrite(space, a, len(v), v)`. The model's function has no bound of its own; no step and no action
of the host writes at or above the capacity (assumption 8). -/
def Memory.writeText : Memory → Nat → Text → Memory
  | m, _, [] => m
  | m, a, b :: bs => Memory.writeText (Memory.write m a b) (a + 1) bs

/-- R12: `MemRead(space, a, n)`, with no value if one of the characters holds none. -/
def Memory.readText (m : Memory) (a n : Nat) : Option Text :=
  (List.range n).mapM (fun i => Memory.read m (a + i))

/-- The canonical form: addresses strictly rising and below the capacity of the space. -/
def Memory.wf (cap : Nat) (m : Memory) : Bool :=
  decide ((m.map (·.1)).Pairwise (· < ·)) && m.all (fun c => decide (c.1 < cap))

/-! ## Results of a step -/

/-- R131, R132: why a step does not end OK. -/
inductive Cause where
  | frameTooShort
  | badMarker
  | statusRejected
  | lengthChecksumMismatch
  | packetChecksumMismatch
  | lengthMismatch
  | payloadTooShort
  | fieldDecodeError
  | illegalOp
  | badInLen
  | badInfo
  | badCellCount
  deriving DecidableEq, Repr

/-- R130: the value of `RESULT` for OK. -/
def okCode : BitVec 8 := 0x00

/-- R130: the value of `RESULT` for each cause; bits 7:6 are the class, bits 5:0 the cause number. -/
def Cause.code : Cause → BitVec 8
  | .frameTooShort => 0x41
  | .badMarker => 0x42
  | .statusRejected => 0x43
  | .lengthChecksumMismatch => 0x44
  | .packetChecksumMismatch => 0x45
  | .lengthMismatch => 0x46
  | .payloadTooShort => 0x47
  | .fieldDecodeError => 0x48
  | .illegalOp => 0x81
  | .badInLen => 0x82
  | .badInfo => 0x83
  | .badCellCount => 0x84

/-- R129, R132: the causes of class FAULT. -/
def Cause.isFault : Cause → Bool
  | .illegalOp => true
  | .badInLen => true
  | .badInfo => true
  | .badCellCount => true
  | _ => false

/-- R12: `raise K(info)`: the cause and the value `RINFO` gets. -/
structure Stop where
  cause : Cause
  info : BitVec 8
  deriving DecidableEq, Repr

/-- A step that ends OK: `RESULT` and `RINFO` are zero, the results are exactly those of this step
(R20). -/
def State.finish (s : State) (r : Results) : State :=
  { s with results := r, result := okCode, rinfo := 0 }

/-- A step that ends REJECT or FAULT (R137): `RESULT` and `RINFO` are written, no result holds a value,
operands, `IN` and `MID` keep what they had. This is the block's only "exception": nothing is saved or
vectored, and there is no return (R139). The sticky bit is the model's own (assumption 5). -/
def State.stop (s : State) (e : Stop) : State :=
  { s with
    results := Results.empty
    result := e.cause.code
    rinfo := e.info
    faultSeen := s.faultSeen || e.cause.isFault }

/-- The end of a step whose outcome is `e`. -/
def State.conclude (s : State) (e : Except Stop Results) : State :=
  match e with
  | .error stop => s.stop stop
  | .ok r => s.finish r

/-! ## Reading the operands -/

/-- The operation the host selected (R17, R63): the fetch of this hardware. -/
def State.fetchOp (s : State) : BitVec 4 := s.operands.op

/-- The string in `IN`, `MemRead(IN, 0, IN_LEN)`. -/
def State.inText (s : State) : Option Text := Memory.readText s.inMem 0 s.operands.inLen.toNat

/-- How every operation that reads `IN` begins (R34, R135): `IN_LEN` above the capacity is FAULT
`BadInLen`; then the operation's own contract on its registers; then the string is read. -/
def State.onIn (s : State) (contract : Option Stop)
    (body : Text → Host.Outcome State Fault Refusal) : Host.Outcome State Fault Refusal :=
  if inCap < s.operands.inLen.toNat then .next (s.stop ⟨.badInLen, 0⟩)
  else
    match contract with
    | some e => .next (s.stop e)
    | none =>
      match s.inText with
      | none => .fault .inHoldsNoValue
      | some p => body p

/-- R64: a step with a reserved `OP`. -/
def State.illegalOp (s : State) (op : BitVec 4) : State := s.stop ⟨.illegalOp, op.setWidth 8⟩

/-! ## Writing and reading results -/

/-- The results of an operation that writes `OUT` and `OUT_LEN` only. A string longer than the capacity, which
no step delivers, would be written past it and counted in the low 13 bits (assumption 8). -/
def Results.ofOut (f : Text) : Results :=
  { Results.empty with out := Memory.writeText [] 0 f, outLen := some (BitVec.ofNat 13 f.length) }

/-- What the host reads in `OUT`: the string, if it holds a value. -/
def Results.outText (r : Results) : Option Text :=
  match r.outLen with
  | none => none
  | some n => Memory.readText r.out 0 n.toNat

/-- `T[name]`. -/
def Results.readT (r : Results) (name : FieldName) : Option Scaled := r.tFile.lookup name

/-- `S[name]`. -/
def Results.readS (r : Results) (name : FieldName) : Option Text := r.sFile.lookup name

/-- `CELLV[i]`. -/
def Results.readCell (r : Results) (i : Nat) : Option Scaled := r.cellv[i]?

/-- `A[cat]`. -/
def Results.readA (r : Results) (cat : Category) : Option Level := r.aFile.lookup cat

/-- R26: `MID.valid`. -/
def State.midValid (s : State) : Bool := s.mid.isSome

end Sys2Proof.Machine
end

