-- ==== Sys2Proof/Machine/Checksum.lean ====
section
/-! DEFINITION. The Checksum Engine (40_checksum.md): PCHK and LCHK. -/

namespace Sys2Proof.Machine

open Sys2Proof

/-- The sum of the character codes of a string, each 0 to 255. -/
def byteSum (text : Text) : Nat := (text.map (·.toNat)).sum

/-- R69: the packet checksum, the sum reduced to 16 bits, complemented, plus 1. -/
def pktChk (text : Text) : BitVec 16 := ~~~(BitVec.ofNat 16 (byteSum text)) + 1

/-- R71: the checksum nibble of a 12-bit length. -/
def lenNibble (n : BitVec 12) : BitVec 4 :=
  ~~~(n.extractLsb' 0 4 + n.extractLsb' 4 4 + n.extractLsb' 8 4) + 1

/-- R71: the combined value, `n | (nib << 12)`. -/
def lenChk (n : BitVec 12) : BitVec 16 := n.setWidth 16 ||| ((lenNibble n).setWidth 16 <<< 12)

/-- R70: PCHK. -/
def execPchk (s : State) : Host.Outcome State Fault Refusal :=
  s.onIn none (fun text => .next (s.finish { Results.empty with chk16 := some (pktChk text) }))

/-- R72: LCHK. -/
def execLchk (s : State) : Host.Outcome State Fault Refusal :=
  .next (s.finish { Results.empty with len16 := some (lenChk s.operands.len12) })

end Sys2Proof.Machine
end

