-- ==== Sys2Proof/Machine/FrameEncoder.lean ====
section
/-! DEFINITION. The Frame Encoder (41_frame_encoder.md): ENCODE. -/

namespace Sys2Proof.Machine

open Sys2Proof

/-- R75: the LEN field for an INFO of `n` characters; for none it is the literal `0000`. R71 and R77 give it
for `n` up to 4094; of a larger count the model's function takes the low 12 bits, and no step asks for it
(assumption 8). -/
def lenField (n : Nat) : Text :=
  if n = 0 then [0x30, 0x30, 0x30, 0x30] else hexStr 4 (lenChk (BitVec.ofNat 12 n)).toNat

/-- R75: what the packet checksum covers, VER to the end of INFO; for an INFO that breaks R77 as
`encodeFrame` (assumption 8). -/
def frameBody (addr cid1 cid2 : BitVec 8) (info : Text) : Text :=
  verText ++ hexStr 2 addr.toNat ++ hexStr 2 cid1.toNat ++ hexStr 2 cid2.toNat ++
    lenField info.length ++ info

/-- R75: the command frame. R75 defines it for an INFO that meets R77; for any other the model's function
copies the characters as they are, with `lenField` of their count, and no step writes such a frame: ENCODE
tests `infoProblem` first (assumption 8). -/
def encodeFrame (addr cid1 cid2 : BitVec 8) (info : Text) : Text :=
  [soi] ++ frameBody addr cid1 cid2 info ++
    hexStr 4 (pktChk (frameBody addr cid1 cid2 info)).toNat ++ [eoi]

/-- R77: the first part of the contract that the information string breaks: 1 odd length, 2 longer than
4094, 3 a character that is no uppercase digit. -/
def infoProblem (info : Text) : Option (BitVec 8) :=
  if info.length % 2 ≠ 0 then some 1
  else if 4094 < info.length then some 2
  else if info.all isUpperHex then none
  else some 3

/-- R76: ENCODE. -/
def execEncode (s : State) : Host.Outcome State Fault Refusal :=
  s.onIn none (fun info =>
    match infoProblem info with
    | some reason => .next (s.stop ⟨.badInfo, reason⟩)
    | none => .next (s.finish (Results.ofOut
        (encodeFrame s.operands.addr s.operands.cid1 s.operands.cid2 info))))

end Sys2Proof.Machine
end

