-- ==== Sys2Proof/Machine/FrameValidator.lean ====
section
/-! DEFINITION. The Frame Decoder/Validator (42_frame_validator.md): VALIDATE. The checks of R80 are one
function each, in the order in which they run. -/

namespace Sys2Proof.Machine

open Sys2Proof

/-- R81, step 0a: the length of the body, without one trailing terminator. -/
def bodyLength (raw : Text) : Nat :=
  if raw.getLast? = some eoi then raw.length - 1 else raw.length

/-- R82, R83, steps 0b and 0c: the short frame and the start marker. -/
def checkMarkers (raw : Text) : Except Stop Unit :=
  if bodyLength raw < hdrLen + trailerLen then .error ⟨.frameTooShort, 0⟩
  else if raw[0]? = some soi then .ok ()
  else .error ⟨.badMarker, 0⟩

/-- R84, step 1: the status code, at offset 7. -/
def checkStatus (raw : Text) : Except Stop Unit :=
  match parseHex (sub raw 7 2) with
  | none => .error ⟨.fieldDecodeError, 0⟩
  | some c => if c = statusOk then .ok () else .error ⟨.statusRejected, BitVec.ofNat 8 c⟩

/-- R85, step 2: the LEN field, at offset 9; it answers `LENID`, the low 12 bits. -/
def checkLength (raw : Text) : Except Stop (BitVec 12) :=
  match parseHex (sub raw 9 4) with
  | none => .error ⟨.lengthChecksumMismatch, 0⟩
  | some l =>
    if (lenChk (BitVec.ofNat 12 l)).toNat = l then .ok (BitVec.ofNat 12 l)
    else .error ⟨.lengthChecksumMismatch, 0⟩

/-- R86, step 3: the packet checksum, the last four characters of the body. -/
def checkPacket (raw : Text) : Except Stop Unit :=
  match parseHex (sub raw (bodyLength raw - 4) 4) with
  | none => .error ⟨.packetChecksumMismatch, 0⟩
  | some c =>
    if (pktChk (sub raw 1 (bodyLength raw - 5))).toNat = c then .ok ()
    else .error ⟨.packetChecksumMismatch, 0⟩

/-- R87, step 3b: the count in LEN is the number of characters between header and CHK. -/
def checkCount (raw : Text) (lenId : BitVec 12) : Except Stop Unit :=
  if lenId.toNat = bodyLength raw - (hdrLen + trailerLen) then .ok ()
  else .error ⟨.lengthMismatch, 0⟩

/-- R88, step 4: the characters between header and CHK. -/
def payloadOf (raw : Text) : Text := sub raw hdrLen (bodyLength raw - (hdrLen + trailerLen))

/-- R80: the checks in their fixed order; the first that fails ends the function. -/
def validate (raw : Text) : Except Stop Text := do
  checkMarkers raw
  checkStatus raw
  let lenId ← checkLength raw
  checkPacket raw
  checkCount raw lenId
  return payloadOf raw

/-- R88: VALIDATE. -/
def execValidate (s : State) : Host.Outcome State Fault Refusal :=
  s.onIn none (fun raw => .next (s.conclude ((validate raw).map Results.ofOut)))

end Sys2Proof.Machine
end

