-- ==== Sys2Proof/Machine/Flags.lean ====
section
/-! DEFINITION. The one-bit and two-bit values of 10_state.md R21: there are no arithmetic flags; what
there is are the FET flags (45_alarm_mapper.md R124), the class bits of `RESULT` (R18, R130), and the
codes of the alarm levels (R24). -/

namespace Sys2Proof.Machine

open Sys2Proof

/-- R124: a FET flag is engaged exactly when its bit is 0. -/
def fetEngaged (fet : BitVec 8) (b : Fin 8) : Bool := !fet.getLsbD b.val

/-- R18: `RESULT[7:6]`, 0 OK, 1 REJECT, 2 FAULT. -/
def resultClass (r : BitVec 8) : BitVec 2 := r.extractLsb' 6 2

/-- R18: `RESULT[5:0]`, the cause number. -/
def resultCause (r : BitVec 8) : BitVec 6 := r.extractLsb' 0 6

/-- R24: the 2-bit code of a level. -/
def Level.code : Level → BitVec 2
  | .normal => 0
  | .warning => 1
  | .protection => 2

end Sys2Proof.Machine
end

