-- ==== Sys2Proof/Machine/AlarmMapper.lean ====
section
/-! DEFINITION. The Protection/Alarm Mapper (45_alarm_mapper.md): ALARM_MAP, and the stage that
DECODE_RT shares with it (44_telemetry_decoders.md R118). -/

namespace Sys2Proof.Machine

open Sys2Proof

/-- The registers the mapper reads (R119). -/
structure StatusRegs where
  v : BitVec 16
  c : BitVec 16
  t : BitVec 16
  w : BitVec 16
  fet : BitVec 8
  deriving DecidableEq, Repr

/-- R119: the register a row names. -/
def StatusRegs.pick (r : StatusRegs) : AlarmReg → BitVec 16
  | .v => r.v
  | .c => r.c
  | .t => r.t
  | .w => r.w

/-- R122: protection first, warning second, else normal. -/
def level (r pmask wmask : BitVec 16) : Level :=
  if r &&& pmask ≠ 0 then .protection
  else if r &&& wmask ≠ 0 then .warning
  else .normal

/-- R119: the alarm file, one entry for each row of the table. -/
def alarmFile (table : List AlarmRow) (r : StatusRegs) : List (Category × Level) :=
  table.map (fun row => (row.cat, level (r.pick row.reg) row.pmask row.wmask))

/-- R125: a limit is reported as its maximum or forced to zero. -/
def gateLimit (engaged : Bool) (max : BitVec 32) : BitVec 32 := if engaged then max else 0

/-- R119: `AlarmMap`, written over results that hold the rest of the operation's values. -/
def alarmMap (cfg : Config) (r : StatusRegs) (chgMax dsgMax : BitVec 32) (out : Results) : Results :=
  { out with
    aFile := alarmFile cfg.params.alarmTable r
    chgEn := some (fetEngaged r.fet cfg.params.fetChgBit)
    dsgEn := some (fetEngaged r.fet cfg.params.fetDsgBit)
    chgLim := some (gateLimit (fetEngaged r.fet cfg.params.fetChgBit) chgMax)
    dsgLim := some (gateLimit (fetEngaged r.fet cfg.params.fetDsgBit) dsgMax) }

/-- The operand registers of ALARM_MAP. -/
def State.statusRegs (s : State) : StatusRegs :=
  ⟨s.operands.vstat, s.operands.cstat, s.operands.tstat, s.operands.wstat, s.operands.fetst⟩

/-- R126: ALARM_MAP. -/
def execAlarmMap (s : State) : Host.Outcome State Fault Refusal :=
  .next (s.finish
    (alarmMap s.cfg s.statusRegs s.operands.chgMax s.operands.dsgMax Results.empty))

end Sys2Proof.Machine
end

