-- ==== Sys2Proof/Machine/Operands.lean ====
section
/-! DEFINITION. The operand forms of the payload (43_field_parser.md): where a field stands (R93) and
how each kind is converted (R94 to R102). `none` is a field that fails (R105). -/

namespace Sys2Proof.Machine

open Sys2Proof

/-- What a field converts to: a number for `U` and `S16`, a byte string for `TEXT` and `VER`. -/
inductive Value where
  | num (n : Scaled)
  | text (t : Text)
  deriving DecidableEq, Repr

/-- R93: the characters of a field of the payload. -/
def fieldAt (p : Text) (y : Layout) (f : FieldDesc) : Text := sub p (y.skip + f.off) f.width

/-- R93: the characters of element `i` of the repeat group. -/
def elementAt (p : Text) (y : Layout) (g : RepGroup) (i : Nat) : Text :=
  sub p (y.skip + g.base + i * g.width) g.width

/-- R94: kind `U`. -/
def convertU (div : Nat) (field : Text) : Option Scaled :=
  match parseHex field with
  | none => none
  | some v => some ⟨(v : Int), div⟩

/-- R95: kind `S16`; the sign is applied before the divisor. R95 is for a field of four characters, which
every legal layout has; of another width the model's function gives `sext16` of its value (assumption 8). -/
def convertS16 (div : Nat) (field : Text) : Option Scaled :=
  match parseHex field with
  | none => none
  | some v => some ⟨sext16 v, div⟩

/-- The pairs of characters of a field of even width, in order (R98, R100). Of an odd field, which no
legal layout has, the last character is dropped (assumption 8). -/
def pairsOf : Text → List Text
  | a :: b :: rest => [a, b] :: pairsOf rest
  | _ => []

/-- R98: the bytes a text field stands for, the first character of a pair the high nibble; of an odd field
as `pairsOf` (assumption 8). -/
def textBytes (field : Text) : Option Text :=
  (pairsOf field).mapM (fun pr =>
    match parseHex pr with
    | none => none
    | some v => some (BitVec.ofNat 8 v))

/-- R99: a byte of `WS`. -/
def isWs (b : Byte) : Bool := wsBytes.contains b

/-- R99: NULs are deleted first, wherever they are; then whitespace goes from both ends. -/
def stripText (bs : Text) : Text :=
  (((bs.filter (fun b => decide (b ≠ 0))).dropWhile isWs).reverse.dropWhile isWs).reverse

/-- R98, R99: kind `TEXT`. -/
def convertText (field : Text) : Option Text :=
  match textBytes field with
  | none => none
  | some bs => some (stripText bs)

/-- R101: the pairs with the separator between them and none at either end. -/
def joinWith (sep : Text) : List Text → Text
  | [] => []
  | [x] => x
  | x :: y :: rest => x ++ sep ++ joinWith sep (y :: rest)

/-- R100, R101: kind `VER`; the pairs are kept as received; of an odd field as `pairsOf` (assumption 8). -/
def convertVer (sep field : Text) : Option Text :=
  if field.all isHex then some (joinWith sep (pairsOf field)) else none

/-- R94 to R101: the conversion of a field by its kind. -/
def convert (sep : Text) (f : FieldDesc) (field : Text) : Option Value :=
  match f.kind with
  | .u => (convertU f.div field).map Value.num
  | .s16 => (convertS16 f.div field).map Value.num
  | .text => (convertText field).map Value.text
  | .ver => (convertVer sep field).map Value.text

/-- The entries a list of converted fields makes in the numeric file `T`. -/
def numEntries : List (FieldName × Value) → List (FieldName × Scaled)
  | [] => []
  | (name, .num n) :: rest => (name, n) :: numEntries rest
  | (_, .text _) :: rest => numEntries rest

/-- The entries a list of converted fields makes in the text file `S`. -/
def textEntries : List (FieldName × Value) → List (FieldName × Text)
  | [] => []
  | (_, .num _) :: rest => textEntries rest
  | (name, .text t) :: rest => (name, t) :: textEntries rest

end Sys2Proof.Machine
end

