-- ==== Sys2Proof/Machine/FieldParser.lean ====
section
/-! DEFINITION. The decoding procedure the four telemetry decoders share (43_field_parser.md section
3). -/

namespace Sys2Proof.Machine

open Sys2Proof

/-- What a payload decodes to: a value for every field, in the order of the layout, and a number for
every element of the repeat group. -/
structure Decoded where
  values : List (FieldName × Value)
  cells : List Scaled
  deriving DecidableEq, Repr

/-- R103: the characters a payload must have. -/
def neededLength (y : Layout) (minLen count : Nat) : Nat :=
  match y.rep with
  | none => minLen
  | some g => max minLen (y.skip + g.base + count * g.width)

/-- R103: the conversion of every field. -/
def convertFields (sep p : Text) (y : Layout) : Option (List (FieldName × Value)) :=
  y.fields.mapM (fun f => (convert sep f (fieldAt p y f)).map (fun v => (f.name, v)))

/-- R102: the conversion of every element of the repeat group; none without a group. -/
def convertCells (p : Text) (y : Layout) (count : Nat) : Option (List Scaled) :=
  match y.rep with
  | none => some []
  | some g => (List.range count).mapM (fun i => convertU g.div (elementAt p y g i))

/-- R103: `DecodeLayout`. The length is tested before any field is read (R104); one field that fails
leaves no result (R105). R103 defines it for a well-formed layout and for count 0 without a repeat group;
the model's function runs on any, and no step gives it another (assumption 8). -/
def decodeLayout (sep p : Text) (y : Layout) (minLen count : Nat) : Except Cause Decoded :=
  if p.length < neededLength y minLen count then .error .payloadTooShort
  else
    match convertFields sep p y, convertCells p y count with
    | some v, some e => .ok ⟨v, e⟩
    | _, _ => .error .fieldDecodeError

/-- R104, R105, R131: `RINFO` of a decoder's rejection: its `OP` code for `PayloadTooShort`, else 0. -/
def decodeStop (op : BitVec 8) (c : Cause) : Stop :=
  match c with
  | .payloadTooShort => ⟨.payloadTooShort, op⟩
  | other => ⟨other, 0⟩

/-- The results of a decoder that delivers every field of its layout: numbers in `T`, strings in `S`
(R94, R95, R99, R101; assumption 7). -/
def Decoded.results (d : Decoded) : Results :=
  { Results.empty with tFile := numEntries d.values, sFile := textEntries d.values }

end Sys2Proof.Machine
end

