-- ==== Sys2Proof/Machine/Telemetry.lean ====
section
/-! DEFINITION. The four Telemetry Decoders (44_telemetry_decoders.md): DECODE_SYS, DECODE_MFR,
DECODE_CAP, DECODE_RT. -/

namespace Sys2Proof.Machine

open Sys2Proof

/-! ## Cell/system parameters and capacity/history -/

/-- R107: `DecodeLayout` of a payload under `LAYOUT_SYS`. -/
def decodeSysLayout (cfg : Config) (p : Text) : Except Cause Decoded :=
  decodeLayout cfg.params.fwSep p cfg.params.layoutSys cfg.params.minLenSys 0

/-- R107: DECODE_SYS. -/
def execDecodeSys (s : State) : Host.Outcome State Fault Refusal :=
  s.onIn none (fun p =>
    match decodeSysLayout s.cfg p with
    | .error c => .next (s.stop (decodeStop 0x5 c))
    | .ok d => .next (s.finish d.results))

/-- R112: `DecodeLayout` of a payload under `LAYOUT_CAP`. -/
def decodeCapLayout (cfg : Config) (p : Text) : Except Cause Decoded :=
  decodeLayout cfg.params.fwSep p cfg.params.layoutCap cfg.params.minLenCap 0

/-- R112: DECODE_CAP. -/
def execDecodeCap (s : State) : Host.Outcome State Fault Refusal :=
  s.onIn none (fun p =>
    match decodeCapLayout s.cfg p with
    | .error c => .next (s.stop (decodeStop 0x7 c))
    | .ok d => .next (s.finish d.results))

/-! ## Manufacturer info -/

/-- R109: `DecodeLayout` of a payload under `LAYOUT_MFR`. -/
def decodeMfrLayout (cfg : Config) (p : Text) : Except Cause Decoded :=
  decodeLayout cfg.params.fwSep p cfg.params.layoutMfr cfg.params.minLenMfr 0

/-- R110: the four strings of a decoded identity. -/
def identityOf (texts : List (FieldName × Text)) : Option Identity :=
  match texts.lookup .hwType, texts.lookup .product, texts.lookup .project, texts.lookup .fw with
  | some h, some p, some j, some f => some ⟨h, p, j, f⟩
  | _, _, _, _ => none

/-- R111: the cache is written while it holds no identity and left as it is otherwise. -/
def cacheUpdate (mid : Option Identity) (fresh : Identity) : Identity :=
  match mid with
  | some cached => cached
  | none => fresh

/-- R109: the results of DECODE_MFR, read from the cache. -/
def identityResults (id : Identity) : Results :=
  { Results.empty with
    sFile := [(.hwType, id.hwType), (.product, id.product), (.project, id.project), (.fw, id.fw)] }

/-- R109, R111: DECODE_MFR. -/
def execDecodeMfr (s : State) : Host.Outcome State Fault Refusal :=
  s.onIn none (fun p =>
    match decodeMfrLayout s.cfg p with
    | .error c => .next (s.stop (decodeStop 0x6 c))
    | .ok d =>
      match identityOf (textEntries d.values) with
      | none => .refused .layoutLacksField
      | some fresh =>
        .next ({ s with mid := some (cacheUpdate s.mid fresh) }.finish
          (identityResults (cacheUpdate s.mid fresh))))

/-! ## Realtime data -/

/-- R117: the cell-count contract. -/
def cellCountProblem (o : Operands) : Option Stop :=
  if o.cellsKnown = false then some ⟨.badCellCount, 1⟩
  else if maxCells < o.cells.toNat then some ⟨.badCellCount, 2⟩
  else none

/-- R114: `DecodeLayout` of a payload under `LAYOUT_RT`, for `CELLS` cells. -/
def decodeRtLayout (cfg : Config) (p : Text) (cells : Nat) : Except Cause Decoded :=
  decodeLayout cfg.params.fwSep p cfg.params.layoutRt cfg.params.minLenRt cells

/-- R97, R114: the five registers in the decoded file. Their fields have 4, 4, 4, 4 and 2 digits (R115),
so a decoded value fits its register. -/
def decodedRegs (t : List (FieldName × Scaled)) : Option StatusRegs :=
  match t.lookup .vstat, t.lookup .cstat, t.lookup .tstat, t.lookup .wstat, t.lookup .fetst with
  | some v, some c, some tt, some w, some f =>
    some ⟨BitVec.ofInt 16 v.raw, BitVec.ofInt 16 c.raw, BitVec.ofInt 16 tt.raw,
      BitVec.ofInt 16 w.raw, BitVec.ofInt 8 f.raw⟩
  | _, _, _, _, _ => none

/-- R114: the results of DECODE_RT before the mapper stage. -/
def Decoded.rtResults (d : Decoded) (cells : BitVec 5) : Results :=
  { d.results with cellv := d.cells, ncellv := some cells }

/-- R114: DECODE_RT. -/
def execDecodeRt (s : State) : Host.Outcome State Fault Refusal :=
  s.onIn (cellCountProblem s.operands) (fun p =>
    match decodeRtLayout s.cfg p s.operands.cells.toNat with
    | .error c => .next (s.stop (decodeStop 0x8 c))
    | .ok d =>
      match decodedRegs (numEntries d.values) with
      | none => .refused .layoutLacksField
      | some regs =>
        .next (s.finish (alarmMap s.cfg regs s.operands.chgMax s.operands.dsgMax
          (d.rtResults s.operands.cells))))

end Sys2Proof.Machine
end

