-- ==== Sys2Proof/Machine/Dispatch.lean ====
section
/-! DEFINITION. One arm per operation of 30_encoding.md R63. -/

namespace Sys2Proof.Machine

open Sys2Proof

def exec (i : Instr) (s : State) : Host.Outcome State Fault Refusal :=
  match i with
  | .pchk => Sys2Proof.Machine.execPchk s
  | .lchk => Sys2Proof.Machine.execLchk s
  | .encode => Sys2Proof.Machine.execEncode s
  | .validate => Sys2Proof.Machine.execValidate s
  | .decodeSys => Sys2Proof.Machine.execDecodeSys s
  | .decodeMfr => Sys2Proof.Machine.execDecodeMfr s
  | .decodeCap => Sys2Proof.Machine.execDecodeCap s
  | .decodeRt => Sys2Proof.Machine.execDecodeRt s
  | .alarmMap => Sys2Proof.Machine.execAlarmMap s

end Sys2Proof.Machine
end

