-- ==== Sys2Proof/Machine/Step.lean ====
section
/-! DEFINITION. One step: the operation that `OP` selects (10_state.md R17, 30_encoding.md R63, R64). -/

namespace Sys2Proof.Machine

open Sys2Proof

/-- The host starts the operation selected by `OP`; a reserved value is FAULT `IllegalOp` (R64). -/
def step (s : State) : Host.Outcome State Fault Refusal :=
  match decode s.fetchOp with
  | .ok i => exec i s
  | .error (.reservedOp op) => .next (s.illegalOp op)

/-- The state in which the very next step runs the operation of a table word: the word is written to
`OP` (assumption 6). -/
def State.withFetchWord (s : State) (nbits w : Nat) : State :=
  { s with operands := { s.operands with op := opOfTableWord nbits w } }

end Sys2Proof.Machine
end

