-- ==== Sys2Proof/Machine/HostPort.lean ====
section
/-! DEFINITION. What the host does between steps (10_state.md R15, R16; 20_memory.md R33; 30_encoding.md
R66, R67; 70_reset_and_hazards.md R147, R154; assumption 10). The block itself is `exec` and `step`; nothing here is part
of them. -/

namespace Sys2Proof.Machine

open Sys2Proof

/-- One action of the host. -/
inductive HostAct where
  | writeOp (v : BitVec 4)
  | writeAddr (v : BitVec 8)
  | writeCid1 (v : BitVec 8)
  | writeCid2 (v : BitVec 8)
  | writeLen12 (v : BitVec 12)
  | writeInLen (v : BitVec 13)
  | writeCells (v : BitVec 5)
  | writeCellsKnown (v : Bool)
  | writeVstat (v : BitVec 16)
  | writeCstat (v : BitVec 16)
  | writeTstat (v : BitVec 16)
  | writeWstat (v : BitVec 16)
  | writeFetst (v : BitVec 8)
  | writeChgMax (v : BitVec 32)
  | writeDsgMax (v : BitVec 32)
  /-- `IN="..."` of R66: the content of `IN` and `IN_LEN`. -/
  | loadIn (text : Text)
  /-- `IN=OUT` of R66: the host copies `OUT` and `OUT_LEN` to `IN` and `IN_LEN`. -/
  | copyOut
  /-- The host starts the operation selected by `OP`. -/
  | start
  /-- Reset (R147), at power-up and at the start of every connection. -/
  | reset
  deriving DecidableEq, Repr

/-- R32: the characters at and above a length hold no value. -/
def Memory.keepBelow (m : Memory) (n : Nat) : Memory := m.filter (fun c => decide (c.1 < n))

/-- R66: `IN="..."`; there are no addresses at and above `IN_CAP` (R32). -/
def State.loadIn (s : State) (text : Text) : Host.Outcome State Fault Refusal :=
  if text.length ≤ inCap then
    .next { s with
      inMem := Memory.writeText [] 0 text
      operands := { s.operands with inLen := BitVec.ofNat 13 text.length } }
  else .fault .beyondInCap

/-- R66: `IN=OUT`; while `OUT` holds no value there is nothing to copy (R153). -/
def State.copyOut (s : State) : Host.Outcome State Fault Refusal :=
  match s.results.outText with
  | none => .fault .outHoldsNoValue
  | some text => s.loadIn text

/-- R147 to R149: everything has its reset value, and the configuration is the same. -/
def State.applyReset (s : State) : State := { State.reset with cfg := s.cfg }

/-- What a host action does to the machine. -/
def hostAct (a : HostAct) (s : State) : Host.Outcome State Fault Refusal :=
  match a with
  | .writeOp v => .next { s with operands := { s.operands with op := v } }
  | .writeAddr v => .next { s with operands := { s.operands with addr := v } }
  | .writeCid1 v => .next { s with operands := { s.operands with cid1 := v } }
  | .writeCid2 v => .next { s with operands := { s.operands with cid2 := v } }
  | .writeLen12 v => .next { s with operands := { s.operands with len12 := v } }
  | .writeInLen v =>
    .next { s with
      inMem := Memory.keepBelow s.inMem v.toNat
      operands := { s.operands with inLen := v } }
  | .writeCells v => .next { s with operands := { s.operands with cells := v } }
  | .writeCellsKnown v => .next { s with operands := { s.operands with cellsKnown := v } }
  | .writeVstat v => .next { s with operands := { s.operands with vstat := v } }
  | .writeCstat v => .next { s with operands := { s.operands with cstat := v } }
  | .writeTstat v => .next { s with operands := { s.operands with tstat := v } }
  | .writeWstat v => .next { s with operands := { s.operands with wstat := v } }
  | .writeFetst v => .next { s with operands := { s.operands with fetst := v } }
  | .writeChgMax v => .next { s with operands := { s.operands with chgMax := v } }
  | .writeDsgMax v => .next { s with operands := { s.operands with dsgMax := v } }
  | .loadIn text => s.loadIn text
  | .copyOut => s.copyOut
  | .start => step s
  | .reset => .next s.applyReset

/-- R66: a script is a list of actions run in order. -/
def runScript : List HostAct → State → Host.Outcome State Fault Refusal
  | [], s => .next s
  | a :: rest, s =>
    match hostAct a s with
    | .next t => runScript rest t
    | .fault r => .fault r
    | .refused r => .refused r

/-- R67: `REQUEST_RT` for the address 0x01, the one address for which the source gives the INFO. -/
def requestRt : List HostAct :=
  [.writeAddr 0x01, .writeCid1 0x4A, .writeCid2 0x42, .loadIn [0x30, 0x31], .writeOp 0x3, .start]

/-- R67: `ROUNDTRIP a c1 c2 info`. -/
def roundTrip (a c1 c2 : BitVec 8) (info : Text) : List HostAct :=
  [.writeAddr a, .writeCid1 c1, .writeCid2 c2, .loadIn info, .writeOp 0x3, .start,
   .copyOut, .writeOp 0x4, .start]

/-- R67: `POLL_RT`, with the operands of DECODE_RT already written. -/
def pollRt (reply : Text) : List HostAct :=
  [.loadIn reply, .writeOp 0x4, .start, .copyOut, .writeOp 0x8, .start]

/-- R67: `packetChecksum(text)`. -/
def packetChecksum (text : Text) : List HostAct := [.loadIn text, .writeOp 0x1, .start]

/-- R67: `lengthChecksum(length)`. -/
def lengthChecksum (length : BitVec 12) : List HostAct := [.writeLen12 length, .writeOp 0x2, .start]

end Sys2Proof.Machine
end

