-- ==== Sys2Proof/Safety.lean ====
section
/-! DEFINITION. What counts as a sound state and a sound start of an operation, in the terms the
statements use. -/

namespace Sys2Proof.Machine

open Sys2Proof

/-- R130: the 13 values of `RESULT`. -/
def legalResults : List (BitVec 8) :=
  [0x00, 0x41, 0x42, 0x43, 0x44, 0x45, 0x46, 0x47, 0x48, 0x81, 0x82, 0x83, 0x84]

/-- R32: `OUT` holds exactly the characters below `OUT_LEN`, and none without a length. -/
def Results.outSound (r : Results) : Prop :=
  Memory.wf outCap r.out = true ∧
    match r.outLen with
    | none => r.out = []
    | some n => n.toNat ≤ outCap ∧ ∀ a, (Memory.read r.out a).isSome = decide (a < n.toNat)

/-- R19, R23: `NCELLV` counts the entries of `CELLV` that hold a value, at most 16. -/
def Results.cellsSound (r : Results) : Prop :=
  match r.ncellv with
  | none => r.cellv = []
  | some n => r.cellv.length = n.toNat ∧ n.toNat ≤ maxCells

/-- R24, R125: the 14 alarm levels, the flags and the limits are written together, and a limit whose
FET flag is not engaged is zero. -/
def Results.alarmsSound (r : Results) : Prop :=
  (r.aFile = [] ∧ r.chgEn = none ∧ r.dsgEn = none ∧ r.chgLim = none ∧ r.dsgLim = none) ∨
    ((∀ c : Category, (r.readA c).isSome = true) ∧ r.aFile.length = 14 ∧
      (r.chgEn = some true ∧ r.chgLim.isSome = true ∨ r.chgEn = some false ∧ r.chgLim = some 0) ∧
      (r.dsgEn = some true ∧ r.dsgLim.isSome = true ∨ r.dsgEn = some false ∧ r.dsgLim = some 0))

/-- The invariant of the machine: `IN` in canonical form (R32), `OUT`, the cells and the alarms sound,
`RESULT` one of its 13 values (R130), no result after a failure (R20, R137), and the sticky bit set after
a FAULT (R139). -/
def State.Inv (s : State) : Prop :=
  Memory.wf inCap s.inMem = true ∧ s.results.outSound ∧ s.results.cellsSound ∧
    s.results.alarmsSound ∧ s.result ∈ legalResults ∧
    (resultClass s.result ≠ 0 → s.results = Results.empty) ∧
    (resultClass s.result = 2 → s.faultSeen = true)

/-- R63: the operations that read `IN`. -/
def readsIn : Instr → Bool
  | .lchk => false
  | .alarmMap => false
  | .pchk => true
  | .encode => true
  | .validate => true
  | .decodeSys => true
  | .decodeMfr => true
  | .decodeCap => true
  | .decodeRt => true

/-- R150 (3): the host has written what the operation reads: for one that reads `IN`, every character
below `IN_LEN`. -/
def State.ready (i : Instr) (s : State) : Prop :=
  readsIn i = true → ∀ a, a < s.operands.inLen.toNat → (Memory.read s.inMem a).isSome = true

/-- The step did what its rule says (R129). -/
def State.endedOk (s : State) : Prop := s.result = okCode

end Sys2Proof.Machine
end

