-- ==== Sys2Proof/Certificates/Slice0/Obligations.lean ====
section
/-! DEFINITION. The statements for the provers. Each docstring names the rule of spec/ that the statement
formalises, or says that it follows from the rules it cites. A statement about every state `s` holds for
every configuration that meets the constraints of R8, since `s.cfg` is arbitrary. -/

namespace Sys2Proof.Claims

open Sys2Proof Sys2Proof.Machine

/-- The host has put the string `text` in `IN` and its length in `IN_LEN` (R32, R150 (3)). -/
abbrev InHolds (s : State) (text : Text) : Prop :=
  text.length = s.operands.inLen.toNat ∧ text.length ≤ 4113 ∧
    ∀ i, i < text.length → Memory.read s.inMem i = text[i]?

/-- R81: `body` is `raw` without one trailing terminator, or all of `raw` if it does not end in one. -/
abbrev HasBody (raw body : Text) : Prop :=
  raw = body ++ [0x0D] ∨ (raw = body ∧ raw.getLast? ≠ some 0x0D)

/-- R77: the contract on an information string. -/
abbrev LegalInfo (info : Text) : Prop :=
  info.length % 2 = 0 ∧ info.length ≤ 4094 ∧
    ∀ c ∈ info, (0x30 ≤ c.toNat ∧ c.toNat ≤ 0x39) ∨ (0x41 ≤ c.toNat ∧ c.toNat ≤ 0x46)

/-- The frame every operation has: the configuration, every operand register and every character of
`IN` are as before (R16, R46, R137). -/
def KeepsInputs (s t : State) : Prop :=
  t.cfg = s.cfg ∧ t.operands = s.operands ∧
    ∀ a, Memory.read t.inMem a = Memory.read s.inMem a

/-- The step ended OK (R129, R130): `RESULT` and `RINFO` are zero. The clause on the sticky bit is about the
model's own field (assumption 5). -/
def EndsOk (s t : State) : Prop :=
  t.result = 0x00 ∧ t.rinfo = 0x00 ∧ KeepsInputs s t ∧ t.faultSeen = s.faultSeen

/-- The step ended REJECT or FAULT (R137): `RESULT` and `RINFO` are written, no result and no character
of `OUT` holds a value and `MID` is as before. The clause on the sticky bit is about the model's own field
(assumption 5): class FAULT alone sets it. That a FAULT is a next state is the model's reading of R129 and
R137 (assumption 4). -/
def EndsStopped (s t : State) (code info : BitVec 8) : Prop :=
  t.result = code ∧ t.rinfo = info ∧ KeepsInputs s t ∧ t.mid = s.mid ∧
    t.results = Results.empty ∧ (∀ a, Memory.read t.results.out a = none) ∧
    t.faultSeen = (s.faultSeen || decide (resultClass code = 2))

/-- The results are `OUT` and `OUT_LEN` with the string `f`, and no other result holds a value. -/
def DeliversOut (t : State) (f : Text) : Prop :=
  t.results = { Results.empty with out := t.results.out, outLen := t.results.outLen } ∧
    (∃ n, t.results.outLen = some n ∧ n.toNat = f.length) ∧
    (∀ a, Memory.read t.results.out a = f[a]?) ∧ t.results.outText = some f

/-- R93: the characters of a field of the payload. -/
abbrev charsOf (p : Text) (y : Layout) (f : FieldDesc) : Text := sub p (y.skip + f.off) f.width

/-- R103: the length check passes and every character of every fixed field is a digit. -/
abbrev Decodable (p : Text) (y : Layout) (minLen : Nat) : Prop :=
  minLen ≤ p.length ∧ ∀ f ∈ y.fields, (charsOf p y f).all isHex = true

/-- R94, R95, R98 to R101: `T` and `S` hold the value of every field of the layout, and nothing under any
other name. That a `TEXT` or `VER` field of `LAYOUT_SYS` or `LAYOUT_RT` goes to `S` is the model's reading of
R99 and R101 (assumption 7). -/
def FilesFollow (sep p : Text) (y : Layout) (r : Results) : Prop :=
  (∀ f ∈ y.fields,
    (f.kind = .u → ∃ v, parseHex (charsOf p y f) = some v ∧
      r.readT f.name = some ⟨(v : Int), f.div⟩) ∧
    (f.kind = .s16 → ∃ v, parseHex (charsOf p y f) = some v ∧
      r.readT f.name = some ⟨if v < 32768 then (v : Int) else (v : Int) - 65536, f.div⟩) ∧
    (f.kind = .text → ∃ bs, textBytes (charsOf p y f) = some bs ∧
      r.readS f.name = some (stripText bs)) ∧
    (f.kind = .ver → r.readS f.name = some (joinWith sep (pairsOf (charsOf p y f))))) ∧
  ∀ name, (∀ f ∈ y.fields, f.name ≠ name) → r.readT name = none ∧ r.readS name = none

/-- R122: the level of a row for a register value, by cases. -/
def LevelIs (r pmask wmask : BitVec 16) (l : Level) : Prop :=
  (r &&& pmask ≠ 0 → l = .protection) ∧
    (r &&& pmask = 0 → r &&& wmask ≠ 0 → l = .warning) ∧
    (r &&& pmask = 0 → r &&& wmask = 0 → l = .normal)

/-- R119, R122, R124, R125: what the mapper delivers for five register values and two maxima. -/
def AlarmsFollow (cfg : Config) (v c t w : BitVec 16) (fet : BitVec 8) (chgMax dsgMax : BitVec 32)
    (r : Results) : Prop :=
  (∀ row ∈ cfg.params.alarmTable, ∃ l, r.readA row.cat = some l ∧
    (row.reg = .v → LevelIs v row.pmask row.wmask l) ∧
    (row.reg = .c → LevelIs c row.pmask row.wmask l) ∧
    (row.reg = .t → LevelIs t row.pmask row.wmask l) ∧
    (row.reg = .w → LevelIs w row.pmask row.wmask l)) ∧
  (fet.getLsbD cfg.params.fetChgBit.val = false → r.chgEn = some true ∧ r.chgLim = some chgMax) ∧
  (fet.getLsbD cfg.params.fetChgBit.val = true → r.chgEn = some false ∧ r.chgLim = some 0) ∧
  (fet.getLsbD cfg.params.fetDsgBit.val = false → r.dsgEn = some true ∧ r.dsgLim = some dsgMax) ∧
  (fet.getLsbD cfg.params.fetDsgBit.val = true → r.dsgEn = some false ∧ r.dsgLim = some 0)

/-- The 14 levels, the flags and the limits of two states are the same. -/
def SameAlarms (a b : Results) : Prop :=
  (∀ c, a.readA c = b.readA c) ∧ a.chgEn = b.chgEn ∧ a.dsgEn = b.dsgEn ∧ a.chgLim = b.chgLim ∧
    a.dsgLim = b.dsgLim

/-- The order `NORMAL` < `WARNING` < `PROTECTION` (R127). -/
def levelRank : Level → Nat
  | .normal => 0
  | .warning => 1
  | .protection => 2

/-- R131, R132: the values of `RESULT` and `RINFO` that a step of an operation can end with. -/
def ListedEnd (i : Instr) (s : State) (code info : BitVec 8) : Prop :=
  (code = 0x00 ∧ info = 0) ∨
  (code = 0x82 ∧ info = 0 ∧ 4113 < s.operands.inLen.toNat ∧
    (i = .pchk ∨ i = .encode ∨ i = .validate ∨ i = .decodeSys ∨ i = .decodeMfr ∨ i = .decodeCap ∨
      i = .decodeRt)) ∨
  (i = .encode ∧ code = 0x83 ∧ (info = 1 ∨ info = 2 ∨ info = 3)) ∨
  (i = .decodeRt ∧ code = 0x84 ∧
    (info = 1 ∧ s.operands.cellsKnown = false ∨
      info = 2 ∧ s.operands.cellsKnown = true ∧ 16 < s.operands.cells.toNat)) ∨
  (i = .validate ∧ info = 0 ∧
    (code = 0x41 ∨ code = 0x42 ∨ code = 0x44 ∨ code = 0x45 ∨ code = 0x46 ∨ code = 0x48)) ∨
  (i = .validate ∧ code = 0x43 ∧ info ≠ 0) ∨
  ((i = .decodeSys ∨ i = .decodeMfr ∨ i = .decodeCap ∨ i = .decodeRt) ∧ code = 0x48 ∧ info = 0) ∨
  ((i = .decodeSys ∨ i = .decodeMfr ∨ i = .decodeCap ∨ i = .decodeRt) ∧ code = 0x47 ∧
    info = (encode i).setWidth 8)

end Sys2Proof.Claims

open Sys2Proof Sys2Proof.Machine Sys2Proof.Claims

/-! ## Selecting an operation -/

/-- R17, R63: the operation that `OP` selects is what the step runs. Nothing stands around it: there is
no program counter to move and no delay slot. -/
def Obligations.StepRunsDecodedInstruction : Prop :=
  ∀ (s : State) (i : Instr), decode s.operands.op = .ok i → step s = exec i s

/-- R63: the operation codes of the table, written out. -/
def Obligations.OperationWordsDecode : Prop :=
  decode 0b0001 = .ok .pchk ∧ decode 0b0010 = .ok .lchk ∧ decode 0b0011 = .ok .encode ∧
    decode 0b0100 = .ok .validate ∧ decode 0b0101 = .ok .decodeSys ∧
    decode 0b0110 = .ok .decodeMfr ∧ decode 0b0111 = .ok .decodeCap ∧
    decode 0b1000 = .ok .decodeRt ∧ decode 0b1001 = .ok .alarmMap

/-- R63, R64: the decoder reads every operation back from its code, no two codes select one operation,
and exactly the reserved values are refused. -/
def Obligations.DecodeInvertsEncode : Prop :=
  (∀ i : Instr, decode (encode i) = .ok i) ∧
    (∀ (op : BitVec 4) (i : Instr), decode op = .ok i → op = encode i) ∧
    ∀ op : BitVec 4, legalOp op = false ↔ decode op = .error (.reservedOp op)

/-- R64, R132: a step with a reserved `OP` ends with FAULT `IllegalOp`, the value of `OP` in `RINFO`, and
nothing else written. That the FAULT is a next state is the model's reading (assumption 4). -/
def Obligations.ReservedOpEndsIllegalOp : Prop :=
  ∀ s : State, (s.operands.op = 0x0 ∨ 0xA ≤ s.operands.op.toNat) →
    ∃ t, step s = .next t ∧ EndsStopped s t 0x81 (s.operands.op.setWidth 8)

/-- R34: `IN_LEN` above the capacity, for every operation that reads `IN`, whatever `IN` holds. That the
FAULT is a next state is the model's reading (assumption 4). -/
def Obligations.InLenAboveCapacityFaults : Prop :=
  ∀ (i : Instr) (s : State),
    (i = .pchk ∨ i = .encode ∨ i = .validate ∨ i = .decodeSys ∨ i = .decodeMfr ∨ i = .decodeCap ∨
      i = .decodeRt) → 4113 < s.operands.inLen.toNat →
    ∃ t, exec i s = .next t ∧ EndsStopped s t 0x82 0

/-! ## The Checksum Engine -/

/-- R69, R70: PCHK completes and `CHK16` is the 16-bit negation of the sum of the characters; no other
result holds a value. -/
def Obligations.PchkDeliversPacketChecksum : Prop :=
  ∀ (s : State) (text : Text), InHolds s text →
    ∃ t v, exec .pchk s = .next t ∧ EndsOk s t ∧ t.mid = s.mid ∧
      t.results = { Results.empty with chk16 := some v } ∧
      (∀ a, Memory.read t.results.out a = none) ∧
      v.toNat = (65536 - (text.map (·.toNat)).sum % 65536) % 65536

/-- R73 (a), (b), (c): the packet checksum adds over concatenation, cancels the sum, and sees every
single changed byte. -/
def Obligations.PacketChecksumLaws : Prop :=
  (∀ a b : Text, pktChk (a ++ b) = pktChk a + pktChk b) ∧
    (∀ a : Text, ((a.map (·.toNat)).sum + (pktChk a).toNat) % 65536 = 0) ∧
    ∀ (a b : Text) (x y : Byte), x ≠ y → pktChk (a ++ x :: b) ≠ pktChk (a ++ y :: b)

/-- R71, R72: LCHK completes in every state and `LEN16` is the length with the checksum nibble above it;
no other result holds a value. -/
def Obligations.LchkDeliversLengthChecksum : Prop :=
  ∀ s : State, ∃ t v n, exec .lchk s = .next t ∧ EndsOk s t ∧ t.mid = s.mid ∧
    t.results = { Results.empty with len16 := some v } ∧
    (∀ a, Memory.read t.results.out a = none) ∧ n = s.operands.len12.toNat ∧
    v.toNat = n + 4096 * ((16 - (n % 16 + n / 16 % 16 + n / 256 % 16) % 16) % 16)

/-- R73 (d), (e): the length checksum keeps the length in its low 12 bits, so it is injective, and a
value that differs from a valid one in exactly one nibble is not valid. -/
def Obligations.LengthChecksumLaws : Prop :=
  (∀ n : BitVec 12, (lenChk n).setWidth 12 = n) ∧
    (∀ n m : BitVec 12, lenChk n = lenChk m → n = m) ∧
    ∀ (n m : BitVec 12) (v : BitVec 16) (k : Nat), k < 4 →
      (∀ j, j < 4 → (v.extractLsb' (4 * j) 4 = (lenChk n).extractLsb' (4 * j) 4 ↔ j ≠ k)) →
      v ≠ lenChk m

/-! ## The Frame Encoder -/

/-- R75, R76, R78: ENCODE completes on every legal information string and `OUT` is the command frame. -/
def Obligations.EncodeDeliversFrame : Prop :=
  ∀ (s : State) (info : Text), InHolds s info → LegalInfo info →
    ∃ t cmd, exec .encode s = .next t ∧ EndsOk s t ∧ t.mid = s.mid ∧
      cmd = [0x32, 0x32] ++ hexStr 2 s.operands.addr.toNat ++ hexStr 2 s.operands.cid1.toNat ++
        hexStr 2 s.operands.cid2.toNat ++ hexStr 4 (lenChk (BitVec.ofNat 12 info.length)).toNat ++
        info ∧
      DeliversOut t ([0x7E] ++ cmd ++ hexStr 4 (pktChk cmd).toNat ++ [0x0D])

/-- R77: an information string that breaks the contract ends FAULT `BadInfo` with the lowest reason that
applies, and nothing else is written. That the FAULT is a next state is the model's reading (assumption
4). -/
def Obligations.EncodeFaultsBadInfo : Prop :=
  ∀ (s : State) (info : Text), InHolds s info →
    (info.length % 2 ≠ 0 → ∃ t, exec .encode s = .next t ∧ EndsStopped s t 0x83 1) ∧
    (info.length % 2 = 0 → 4094 < info.length →
      ∃ t, exec .encode s = .next t ∧ EndsStopped s t 0x83 2) ∧
    (info.length % 2 = 0 → info.length ≤ 4094 →
      (∃ c ∈ info, ¬((0x30 ≤ c.toNat ∧ c.toNat ≤ 0x39) ∨ (0x41 ≤ c.toNat ∧ c.toNat ≤ 0x46))) →
      ∃ t, exec .encode s = .next t ∧ EndsStopped s t 0x83 3)

/-- R79 (a) to (f): the shape of an encoded frame. -/
def Obligations.EncodedFrameShape : Prop :=
  ∀ (a c1 c2 : BitVec 8) (info f : Text), LegalInfo info → f = encodeFrame a c1 c2 info →
    f.length = 18 + info.length ∧ f[0]? = some 0x7E ∧ f[17 + info.length]? = some 0x0D ∧
    (∀ i, 1 ≤ i → i < 17 + info.length → ∃ c, f[i]? = some c ∧
      ((0x30 ≤ c.toNat ∧ c.toNat ≤ 0x39) ∨ (0x41 ≤ c.toNat ∧ c.toNat ≤ 0x46))) ∧
    sub f 1 2 = [0x32, 0x32] ∧
    parseHex (sub f 9 4) = some (lenChk (BitVec.ofNat 12 info.length)).toNat ∧
    parseHex (sub f (13 + info.length) 4) = some (pktChk (sub f 1 (12 + info.length))).toNat ∧
    sub f 13 info.length = info

/-! ## The Frame Decoder/Validator -/

/-- R88: VALIDATE completes on every string that passes the checks of R80, and `OUT` is the payload. -/
def Obligations.ValidateDeliversPayload : Prop :=
  ∀ (s : State) (raw body : Text) (l k : Nat), InHolds s raw → HasBody raw body →
    17 ≤ body.length → body[0]? = some 0x7E → parseHex (sub body 7 2) = some 0 →
    parseHex (sub body 9 4) = some l → (lenChk (BitVec.ofNat 12 l)).toNat = l →
    parseHex (sub body (body.length - 4) 4) = some k →
    (pktChk (sub body 1 (body.length - 5))).toNat = k → l % 4096 = body.length - 17 →
    ∃ t, exec .validate s = .next t ∧ EndsOk s t ∧ t.mid = s.mid ∧
      DeliversOut t (sub body 13 (body.length - 17))

/-- R82, R83: a body of fewer than 17 characters, whatever they are; then a first character that is not
the start marker. -/
def Obligations.ValidateRejectsShortOrUnmarked : Prop :=
  ∀ (s : State) (raw body : Text), InHolds s raw → HasBody raw body →
    (body.length < 17 → ∃ t, exec .validate s = .next t ∧ EndsStopped s t 0x41 0) ∧
    (17 ≤ body.length → body[0]? ≠ some 0x7E →
      ∃ t, exec .validate s = .next t ∧ EndsStopped s t 0x42 0)

/-- R84: the status code, before either checksum is looked at. -/
def Obligations.ValidateRejectsStatus : Prop :=
  ∀ (s : State) (raw body : Text), InHolds s raw → HasBody raw body → 17 ≤ body.length →
    body[0]? = some 0x7E →
    (parseHex (sub body 7 2) = none → ∃ t, exec .validate s = .next t ∧ EndsStopped s t 0x48 0) ∧
    ∀ c, parseHex (sub body 7 2) = some c → c ≠ 0 →
      ∃ t, exec .validate s = .next t ∧ EndsStopped s t 0x43 (BitVec.ofNat 8 c)

/-- R85: the LEN field, before the packet checksum is looked at. -/
def Obligations.ValidateRejectsLengthField : Prop :=
  ∀ (s : State) (raw body : Text), InHolds s raw → HasBody raw body → 17 ≤ body.length →
    body[0]? = some 0x7E → parseHex (sub body 7 2) = some 0 →
    (parseHex (sub body 9 4) = none ∨
      ∃ l, parseHex (sub body 9 4) = some l ∧ (lenChk (BitVec.ofNat 12 l)).toNat ≠ l) →
    ∃ t, exec .validate s = .next t ∧ EndsStopped s t 0x44 0

/-- R86: the packet checksum, over everything between the start marker and the checksum field. -/
def Obligations.ValidateRejectsPacketChecksum : Prop :=
  ∀ (s : State) (raw body : Text) (l : Nat), InHolds s raw → HasBody raw body → 17 ≤ body.length →
    body[0]? = some 0x7E → parseHex (sub body 7 2) = some 0 → parseHex (sub body 9 4) = some l →
    (lenChk (BitVec.ofNat 12 l)).toNat = l →
    (parseHex (sub body (body.length - 4) 4) = none ∨
      ∃ k, parseHex (sub body (body.length - 4) 4) = some k ∧
        (pktChk (sub body 1 (body.length - 5))).toNat ≠ k) →
    ∃ t, exec .validate s = .next t ∧ EndsStopped s t 0x45 0

/-- R87: the count in LEN against the number of characters between header and checksum. -/
def Obligations.ValidateRejectsCount : Prop :=
  ∀ (s : State) (raw body : Text) (l k : Nat), InHolds s raw → HasBody raw body →
    17 ≤ body.length → body[0]? = some 0x7E → parseHex (sub body 7 2) = some 0 →
    parseHex (sub body 9 4) = some l → (lenChk (BitVec.ofNat 12 l)).toNat = l →
    parseHex (sub body (body.length - 4) 4) = some k →
    (pktChk (sub body 1 (body.length - 5))).toNat = k → l % 4096 ≠ body.length - 17 →
    ∃ t, exec .validate s = .next t ∧ EndsStopped s t 0x46 0

/-- R90 (a), R33: a frame that ENCODE wrote, copied by the host from `OUT` to `IN`, ends VALIDATE with the
original information string for CID2 = 0, and with `StatusRejected(CID2)` for every other CID2. -/
def Obligations.EncodeThenValidateRoundTrip : Prop :=
  ∀ (s : State) (info : Text), InHolds s info → LegalInfo info →
    ∃ t u v, exec .encode s = .next t ∧ hostAct .copyOut t = .next u ∧
      exec .validate u = .next v ∧ v.operands.addr = s.operands.addr ∧
      (s.operands.cid2 = 0 → EndsOk u v ∧ DeliversOut v info) ∧
      (s.operands.cid2 ≠ 0 → EndsStopped u v 0x43 s.operands.cid2)

/-- R90 (b), (c), (d), with R83 and R84 for the marker and the status: one changed character of an accepted
frame, with or without its terminator. In the marker it is `BadMarker`; in the status it is
`FieldDecodeError` for no digit, and else `StatusRejected` with the code that the field then holds; in LEN
a digit of another value or no digit is `LengthChecksumMismatch`, and a change of letter case alone is
`PacketChecksumMismatch`; in VER, ADDR, CID1 or INFO every change is `PacketChecksumMismatch`; in the
checksum field a digit of another value or no digit is `PacketChecksumMismatch`, and a change of letter
case alone leaves the frame valid with the same payload. The last clause is a last character that is itself
changed into a terminator, which R81 then takes off. -/
def Obligations.OneCorruptCharacterIsRejected : Prop :=
  ∀ (raw body p : Text) (i : Nat) (old new : Byte), HasBody raw body → validate raw = .ok p →
    body[i]? = some old → new ≠ old →
    (∀ bad : Text, HasBody bad (body.set i new) →
      (i = 0 → validate bad = .error ⟨.badMarker, 0⟩) ∧
      (7 ≤ i → i < 9 → hexVal new = none → validate bad = .error ⟨.fieldDecodeError, 0⟩) ∧
      (7 ≤ i → i < 9 → hexVal new ≠ none → ∃ c : BitVec 8, c ≠ 0 ∧
        parseHex (sub (body.set i new) 7 2) = some c.toNat ∧
        validate bad = .error ⟨.statusRejected, c⟩) ∧
      (9 ≤ i → i < 13 → hexVal new ≠ hexVal old →
        validate bad = .error ⟨.lengthChecksumMismatch, 0⟩) ∧
      (9 ≤ i → i < 13 → hexVal new = hexVal old →
        validate bad = .error ⟨.packetChecksumMismatch, 0⟩) ∧
      (1 ≤ i → i < 7 ∨ 13 ≤ i → i < body.length - 4 →
        validate bad = .error ⟨.packetChecksumMismatch, 0⟩) ∧
      (body.length - 4 ≤ i → hexVal new ≠ hexVal old →
        validate bad = .error ⟨.packetChecksumMismatch, 0⟩) ∧
      (body.length - 4 ≤ i → hexVal new = hexVal old → validate bad = .ok p)) ∧
    (i + 1 = body.length → new = 0x0D →
      (body.length = 17 → validate (body.set i new) = .error ⟨.frameTooShort, 0⟩) ∧
      (18 ≤ body.length → validate (body.set i new) = .error ⟨.packetChecksumMismatch, 0⟩ ∨
        validate (body.set i new) = .error ⟨.lengthMismatch, 0⟩))

/-- R90 (e), (f): a valid frame without its terminator is valid with the same payload. One that has lost
characters from the end of its body is `FrameTooShort` with fewer than 17 left, and else fails at step 3 or
step 3b, as `PacketChecksumMismatch` or `LengthMismatch`. Of 17 characters left the last may be 0x0D, which
R81 takes off as a terminator, so that 16 are left. -/
def Obligations.TruncatedFrameIsRejected : Prop :=
  ∀ body p : Text, validate (body ++ [0x0D]) = .ok p →
    validate body = .ok p ∧
      ∀ n, n < body.length →
        (n < 17 → validate (body.take n) = .error ⟨.frameTooShort, 0⟩) ∧
        (n = 17 → body[16]? = some 0x0D → validate (body.take n) = .error ⟨.frameTooShort, 0⟩) ∧
        (17 ≤ n → (n = 17 → body[16]? ≠ some 0x0D) →
          validate (body.take n) = .error ⟨.packetChecksumMismatch, 0⟩ ∨
            validate (body.take n) = .error ⟨.lengthMismatch, 0⟩)

/-! ## The field parser -/

/-- R104: a payload shorter than the decoder needs; for DECODE_RT the needed length also covers `CELLS`
cell fields. `RINFO` is the decoder's `OP` code. -/
def Obligations.PayloadTooShortIsReported : Prop :=
  ∀ (s : State) (p : Text), InHolds s p →
    (p.length < s.cfg.params.minLenSys →
      ∃ t, exec .decodeSys s = .next t ∧ EndsStopped s t 0x47 5) ∧
    (p.length < s.cfg.params.minLenMfr →
      ∃ t, exec .decodeMfr s = .next t ∧ EndsStopped s t 0x47 6) ∧
    (p.length < s.cfg.params.minLenCap →
      ∃ t, exec .decodeCap s = .next t ∧ EndsStopped s t 0x47 7) ∧
    ∀ g, s.cfg.params.layoutRt.rep = some g → s.operands.cellsKnown = true →
      s.operands.cells.toNat ≤ 16 →
      (p.length < s.cfg.params.minLenRt ∨ p.length <
        s.cfg.params.layoutRt.skip + g.base + s.operands.cells.toNat * g.width) →
      ∃ t, exec .decodeRt s = .next t ∧ EndsStopped s t 0x47 8

/-- R105: when the length check passes, one character that is no digit in any field, or in any of the
`CELLS` cell fields of DECODE_RT, ends the decoder with `FieldDecodeError`, `RINFO` = 0 and no result. -/
def Obligations.FieldDecodeErrorLeavesNoResult : Prop :=
  ∀ (s : State) (p : Text), InHolds s p →
    (s.cfg.params.minLenSys ≤ p.length →
      (∃ f ∈ s.cfg.params.layoutSys.fields,
        (charsOf p s.cfg.params.layoutSys f).all isHex = false) →
      ∃ t, exec .decodeSys s = .next t ∧ EndsStopped s t 0x48 0) ∧
    (s.cfg.params.minLenMfr ≤ p.length →
      (∃ f ∈ s.cfg.params.layoutMfr.fields,
        (charsOf p s.cfg.params.layoutMfr f).all isHex = false) →
      ∃ t, exec .decodeMfr s = .next t ∧ EndsStopped s t 0x48 0) ∧
    (s.cfg.params.minLenCap ≤ p.length →
      (∃ f ∈ s.cfg.params.layoutCap.fields,
        (charsOf p s.cfg.params.layoutCap f).all isHex = false) →
      ∃ t, exec .decodeCap s = .next t ∧ EndsStopped s t 0x48 0) ∧
    ∀ g, s.cfg.params.layoutRt.rep = some g → s.operands.cellsKnown = true →
      s.operands.cells.toNat ≤ 16 → s.cfg.params.minLenRt ≤ p.length →
      s.cfg.params.layoutRt.skip + g.base + s.operands.cells.toNat * g.width ≤ p.length →
      ((∃ f ∈ s.cfg.params.layoutRt.fields,
          (charsOf p s.cfg.params.layoutRt f).all isHex = false) ∨
        ∃ i, i < s.operands.cells.toNat ∧
          (sub p (s.cfg.params.layoutRt.skip + g.base + i * g.width) g.width).all isHex = false) →
      ∃ t, exec .decodeRt s = .next t ∧ EndsStopped s t 0x48 0

/-- R11, R37, R106 (d): the value of every digit; the first character of a string is the most significant;
rendering and parsing are inverse, up to the case of the digits. Of the empty string, which R11 leaves out,
nothing is said (assumption 8). -/
def Obligations.HexDigitsRoundTrip : Prop :=
  (∀ c : Byte,
    (0x30 ≤ c.toNat → c.toNat ≤ 0x39 → hexVal c = some (c.toNat - 0x30)) ∧
    (0x41 ≤ c.toNat → c.toNat ≤ 0x46 → hexVal c = some (c.toNat - 0x41 + 10)) ∧
    (0x61 ≤ c.toNat → c.toNat ≤ 0x66 → hexVal c = some (c.toNat - 0x61 + 10)) ∧
    (isHex c = true ↔ (0x30 ≤ c.toNat ∧ c.toNat ≤ 0x39) ∨ (0x41 ≤ c.toNat ∧ c.toNat ≤ 0x46) ∨
      (0x61 ≤ c.toNat ∧ c.toNat ≤ 0x66)) ∧
    (isHex c = false → hexVal c = none) ∧
    parseHex [c] = hexVal c) ∧
  (∀ (s : Text) (c : Byte), s ≠ [] →
    parseHex (s ++ [c]) =
      (parseHex s).bind (fun v => (hexVal c).map (fun d => 16 * v + d))) ∧
  (∀ n v : Nat, 1 ≤ n → v < 16 ^ n → parseHex (hexStr n v) = some v) ∧
    ∀ (s : Text) (v : Nat), s ≠ [] → parseHex s = some v →
      v < 16 ^ s.length ∧ (hexStr s.length v).length = s.length ∧
        ∀ (i : Nat) (c : Byte), s[i]? = some c → ∃ d, (hexStr s.length v)[i]? = some d ∧
          hexVal d = hexVal c ∧
          ((0x30 ≤ d.toNat ∧ d.toNat ≤ 0x39) ∨ (0x41 ≤ d.toNat ∧ d.toNat ≤ 0x46))

/-- R106 (b), (c), (e), (f): the range of `U` and `S16` values, and the form of text results. The `U` clause
also speaks of the empty field, where R11 defines no value and the model gives 0, and the `TEXT` clause of
fields of odd length, where R98 defines no bytes and the model drops the last character: there they say
what the model chose (assumption 8). No legal layout has such a field (R92). -/
def Obligations.ConversionLaws : Prop :=
  (∀ (d : Nat) (s : Text) (n : Scaled), convertU d s = some n →
    0 ≤ n.raw ∧ n.raw < 16 ^ s.length ∧ n.div = d) ∧
  (∀ (d : Nat) (s : Text) (n : Scaled), s.length = 4 → convertS16 d s = some n →
    -32768 ≤ n.raw ∧ n.raw ≤ 32767 ∧ n.div = d ∧ ∃ v : Nat, parseHex s = some v ∧
      n.raw % 65536 = (v : Int)) ∧
  (∀ s t : Text, convertText s = some t →
    t.length ≤ s.length / 2 ∧ (0 : Byte) ∉ t ∧ (∀ b, t.head? = some b → b ∉ wsBytes) ∧
      ∀ b, t.getLast? = some b → b ∉ wsBytes) ∧
  ∀ (c : Byte) (s t : Text), s.length % 2 = 0 → 2 ≤ s.length → convertVer [c] s = some t →
    t.length = 3 * (s.length / 2) - 1

/-- R98, R99: what a TEXT field contains. Byte `k` is the value of pair `k`, and the field fails exactly
when a pair has none; the result is what is left of the bytes without 0x00 when the bytes of `WS` (written
out) are taken from both ends. -/
def Obligations.TextFieldContents : Prop :=
  (∀ s bs : Text, s.length % 2 = 0 → (textBytes s = some bs ↔
    2 * bs.length = s.length ∧
      ∀ (k : Nat) (b : Byte), bs[k]? = some b → parseHex (sub s (2 * k) 2) = some b.toNat)) ∧
  (∀ s : Text, s.length % 2 = 0 →
    (convertText s = none ↔ ∃ k, 2 * k < s.length ∧ parseHex (sub s (2 * k) 2) = none)) ∧
  ∀ s t : Text, s.length % 2 = 0 → convertText s = some t → ∃ bs pre post : Text,
    textBytes s = some bs ∧ t = stripText bs ∧
    bs.filter (fun b => decide (b ≠ 0x00)) = pre ++ t ++ post ∧
    (∀ b, b ∈ pre ∨ b ∈ post →
      b = 0x09 ∨ b = 0x0A ∨ b = 0x0B ∨ b = 0x0C ∨ b = 0x0D ∨ b = 0x20) ∧
    ∀ b, t.head? = some b ∨ t.getLast? = some b →
      b ≠ 0x09 ∧ b ≠ 0x0A ∧ b ≠ 0x0B ∧ b ≠ 0x0C ∧ b ≠ 0x0D ∧ b ≠ 0x20

/-- R100, R101: what a VER field of `2 * n` characters contains. It fails exactly when a character is no
digit; otherwise pair `k` stands in the result as it was received, with the separator, any byte string,
between two pairs and none at either end. -/
def Obligations.VersionFieldContents : Prop :=
  ∀ (sep s : Text) (n : Nat), 1 ≤ n → s.length = 2 * n →
    (convertVer sep s = none ↔ ∃ c ∈ s, isHex c = false) ∧
    (∀ t, convertVer sep s = some t → t = joinWith sep (pairsOf s)) ∧
    (joinWith sep (pairsOf s)).length = 2 * n + sep.length * (n - 1) ∧
    (∀ k, k < n →
      sub (joinWith sep (pairsOf s)) (k * (2 + sep.length)) 2 = sub s (2 * k) 2) ∧
    ∀ k, k + 1 < n →
      sub (joinWith sep (pairsOf s)) (k * (2 + sep.length) + 2) sep.length = sep

/-! ## The Telemetry Decoders -/

/-- R107: DECODE_SYS completes on every payload that passes the length check and has digits in its
fields, and delivers every field of `LAYOUT_SYS`; no other result holds a value. R63 and R107 name `T`
alone: that text fields, if the layout has any, go to `S` is the model's reading (assumption 7). -/
def Obligations.DecodeSysDeliversFields : Prop :=
  ∀ (s : State) (p : Text), InHolds s p →
    Decodable p s.cfg.params.layoutSys s.cfg.params.minLenSys →
    ∃ t, exec .decodeSys s = .next t ∧ EndsOk s t ∧ t.mid = s.mid ∧
      FilesFollow s.cfg.params.fwSep p s.cfg.params.layoutSys t.results ∧
      t.results = { Results.empty with tFile := t.results.tFile, sFile := t.results.sFile } ∧
      ∀ a, Memory.read t.results.out a = none

/-- R112: the same for DECODE_CAP and `LAYOUT_CAP`, which has numbers only, so `S` holds nothing. -/
def Obligations.DecodeCapDeliversFields : Prop :=
  ∀ (s : State) (p : Text), InHolds s p →
    Decodable p s.cfg.params.layoutCap s.cfg.params.minLenCap →
    ∃ t, exec .decodeCap s = .next t ∧ EndsOk s t ∧ t.mid = s.mid ∧
      FilesFollow s.cfg.params.fwSep p s.cfg.params.layoutCap t.results ∧
      t.results = { Results.empty with tFile := t.results.tFile } ∧
      ∀ a, Memory.read t.results.out a = none

/-- R109, R111: DECODE_MFR completes on every decodable payload. While the cache holds no identity it
takes the decoded strings; otherwise it stays as it is. The results are read from the cache, and no other
result holds a value. -/
def Obligations.DecodeMfrWritesCacheOnce : Prop :=
  ∀ (s : State) (p : Text), InHolds s p →
    Decodable p s.cfg.params.layoutMfr s.cfg.params.minLenMfr →
    ∃ t id, exec .decodeMfr s = .next t ∧ EndsOk s t ∧ t.mid = some id ∧
      (∀ old, s.mid = some old → id = old) ∧
      (s.mid = none → ∀ f ∈ s.cfg.params.layoutMfr.fields,
        (f.name = .hwType → ∃ bs, textBytes (charsOf p s.cfg.params.layoutMfr f) = some bs ∧
          id.hwType = stripText bs) ∧
        (f.name = .product → ∃ bs, textBytes (charsOf p s.cfg.params.layoutMfr f) = some bs ∧
          id.product = stripText bs) ∧
        (f.name = .project → ∃ bs, textBytes (charsOf p s.cfg.params.layoutMfr f) = some bs ∧
          id.project = stripText bs) ∧
        (f.name = .fw → id.fw =
          joinWith s.cfg.params.fwSep (pairsOf (charsOf p s.cfg.params.layoutMfr f)))) ∧
      t.results.readS .hwType = some id.hwType ∧ t.results.readS .product = some id.product ∧
      t.results.readS .project = some id.project ∧ t.results.readS .fw = some id.fw ∧
      t.results = { Results.empty with sFile := t.results.sFile } ∧
      ∀ a, Memory.read t.results.out a = none

/-- R6, R113, R115: whatever the layouts are, the numbers that an operation delivers for the quantities to
which the source gives a divisor have that divisor: state of charge, pack voltage and capacities 100,
temperatures and energies 10, cell voltages 1000. That the divisor goes with the name in every layout is the
model's reading (assumption 15). -/
def Obligations.NamedQuantitiesHaveTheirDivisors : Prop :=
  ∀ (i : Instr) (s t : State), exec i s = .next t →
    (∀ v, t.results.readT .soc = some v ∨ t.results.readT .volt = some v ∨
      t.results.readT .cap = some v ∨ t.results.readT .capacity = some v → v.div = 100) ∧
    (∀ v, t.results.readT .temp1 = some v ∨ t.results.readT .temp2 = some v ∨
      t.results.readT .temp3 = some v ∨ t.results.readT .temp4 = some v ∨
      t.results.readT .temp5 = some v ∨ t.results.readT .chgEnergy = some v ∨
      t.results.readT .dsgEnergy = some v → v.div = 10) ∧
    ∀ k v, t.results.readCell k = some v → v.div = 1000

/-- R114, R116: DECODE_RT completes under the cell-count contract on every payload that is long enough
and has digits in its fields and in the first `CELLS` cell fields; it delivers every field of
`LAYOUT_RT`, the cells, their number, and what the mapper makes of the five decoded registers (R118). R114
writes `T` for every field: that text fields, if the layout has any, go to `S` is the model's reading
(assumption 7). -/
def Obligations.DecodeRtDeliversTelemetry : Prop :=
  ∀ (s : State) (p : Text) (g : RepGroup), InHolds s p → s.operands.cellsKnown = true →
    s.operands.cells.toNat ≤ 16 → s.cfg.params.layoutRt.rep = some g →
    Decodable p s.cfg.params.layoutRt s.cfg.params.minLenRt →
    s.cfg.params.layoutRt.skip + g.base + s.operands.cells.toNat * g.width ≤ p.length →
    (∀ i, i < s.operands.cells.toNat →
      (sub p (s.cfg.params.layoutRt.skip + g.base + i * g.width) g.width).all isHex = true) →
    ∃ t v c tt w fet, exec .decodeRt s = .next t ∧ EndsOk s t ∧ t.mid = s.mid ∧
      FilesFollow s.cfg.params.fwSep p s.cfg.params.layoutRt t.results ∧
      (∀ i, i < s.operands.cells.toNat → ∃ x,
        parseHex (sub p (s.cfg.params.layoutRt.skip + g.base + i * g.width) g.width) = some x ∧
        t.results.readCell i = some ⟨(x : Int), 1000⟩) ∧
      (∀ i, s.operands.cells.toNat ≤ i → t.results.readCell i = none) ∧
      t.results.ncellv = some s.operands.cells ∧
      t.results.readT .vstat = some ⟨(v.toNat : Int), 1⟩ ∧
      t.results.readT .cstat = some ⟨(c.toNat : Int), 1⟩ ∧
      t.results.readT .tstat = some ⟨(tt.toNat : Int), 1⟩ ∧
      t.results.readT .wstat = some ⟨(w.toNat : Int), 1⟩ ∧
      t.results.readT .fetst = some ⟨(fet.toNat : Int), 1⟩ ∧
      AlarmsFollow s.cfg v c tt w fet s.operands.chgMax s.operands.dsgMax t.results ∧
      t.results.chk16 = none ∧ t.results.len16 = none ∧ t.results.outLen = none ∧
      ∀ a, Memory.read t.results.out a = none

/-- R117: the cell-count contract of DECODE_RT, tested before the payload is looked at. That the FAULT is a
next state is the model's reading (assumption 4). -/
def Obligations.DecodeRtCellCountContract : Prop :=
  ∀ s : State, s.operands.inLen.toNat ≤ 4113 →
    (s.operands.cellsKnown = false →
      ∃ t, exec .decodeRt s = .next t ∧ EndsStopped s t 0x84 1) ∧
    (s.operands.cellsKnown = true → 16 < s.operands.cells.toNat →
      ∃ t, exec .decodeRt s = .next t ∧ EndsStopped s t 0x84 2)

/-- R118: ALARM_MAP on the five registers that DECODE_RT delivered, with the same maxima, delivers the
same alarms. -/
def Obligations.DecodeRtAgreesWithAlarmMap : Prop :=
  ∀ s t u : State, exec .decodeRt s = .next t → t.result = 0 → u.cfg = s.cfg →
    u.operands.chgMax = s.operands.chgMax → u.operands.dsgMax = s.operands.dsgMax →
    t.results.readT .vstat = some ⟨(u.operands.vstat.toNat : Int), 1⟩ →
    t.results.readT .cstat = some ⟨(u.operands.cstat.toNat : Int), 1⟩ →
    t.results.readT .tstat = some ⟨(u.operands.tstat.toNat : Int), 1⟩ →
    t.results.readT .wstat = some ⟨(u.operands.wstat.toNat : Int), 1⟩ →
    t.results.readT .fetst = some ⟨(u.operands.fetst.toNat : Int), 1⟩ →
    ∃ w, exec .alarmMap u = .next w ∧ SameAlarms t.results w.results

/-! ## The Protection/Alarm Mapper -/

/-- R119, R126: ALARM_MAP completes in every state and delivers the 14 levels, the flags and the gated
limits; no other result holds a value. -/
def Obligations.AlarmMapDeliversAlarms : Prop :=
  ∀ s : State, ∃ t, exec .alarmMap s = .next t ∧ EndsOk s t ∧ t.mid = s.mid ∧
    AlarmsFollow s.cfg s.operands.vstat s.operands.cstat s.operands.tstat s.operands.wstat
      s.operands.fetst s.operands.chgMax s.operands.dsgMax t.results ∧
    (∀ c : Category, (t.results.readA c).isSome = true) ∧
    t.results = { Results.empty with
      aFile := t.results.aFile, chgEn := t.results.chgEn, dsgEn := t.results.dsgEn
      chgLim := t.results.chgLim, dsgLim := t.results.dsgLim } ∧
    ∀ a, Memory.read t.results.out a = none

/-- R127: the properties of the mapper for every table that meets R121. -/
def Obligations.AlarmMapProperties : Prop :=
  ∀ s t : State, exec .alarmMap s = .next t →
    (s.operands.vstat = 0 → s.operands.cstat = 0 → s.operands.tstat = 0 → s.operands.wstat = 0 →
      ∀ c, t.results.readA c = some .normal) ∧
    (s.operands.vstat.getLsbD 0 = true → t.results.readA .highPackVolt = some .protection) ∧
    (∀ c l, t.results.readA c = some l → l.code ≠ 3) ∧
    (t.results.chgLim = some s.operands.chgMax ∨ t.results.chgLim = some 0) ∧
    (t.results.dsgLim = some s.operands.dsgMax ∨ t.results.dsgLim = some 0) ∧
    ∀ s' t' : State, exec .alarmMap s' = .next t' → s'.cfg = s.cfg →
      (s'.operands.vstat &&& s.operands.vstat = s.operands.vstat →
        s'.operands.cstat &&& s.operands.cstat = s.operands.cstat →
        s'.operands.tstat &&& s.operands.tstat = s.operands.tstat →
        s'.operands.wstat &&& s.operands.wstat = s.operands.wstat →
        ∀ c l l', t.results.readA c = some l → t'.results.readA c = some l' →
          levelRank l ≤ levelRank l') ∧
      (s'.operands.vstat = s.operands.vstat → s'.operands.cstat = s.operands.cstat →
        s'.operands.tstat = s.operands.tstat → s'.operands.wstat = s.operands.wstat →
        ∀ c, t'.results.readA c = t.results.readA c) ∧
      (s'.operands.fetst = s.operands.fetst → s'.operands.chgMax = s.operands.chgMax →
        s'.operands.dsgMax = s.operands.dsgMax →
        t'.results.chgEn = t.results.chgEn ∧ t'.results.dsgEn = t.results.dsgEn ∧
          t'.results.chgLim = t.results.chgLim ∧ t'.results.dsgLim = t.results.dsgLim)

/-! ## The whole machine -/

/-- R16, R46, R137: no operation changes an operand register, a character of `IN` or the
configuration. -/
def Obligations.EveryStepKeepsInputs : Prop :=
  (∀ (i : Instr) (s t : State), exec i s = .next t → KeepsInputs s t) ∧
    ∀ s t : State, step s = .next t → KeepsInputs s t

/-- R26, R111, R148: only DECODE_MFR that ends OK writes `MID`, and once valid no step changes it or
clears it. -/
def Obligations.OnlyDecodeMfrWritesCache : Prop :=
  ∀ s t : State, step s = .next t →
    (∀ id, s.mid = some id → t.mid = some id) ∧
      (t.mid ≠ s.mid → s.operands.op = 0x6 ∧ t.result = 0 ∧ s.mid = none)

/-- R137, R138: a step that ends REJECT or FAULT writes `RESULT` and `RINFO` and leaves no result. That a
FAULT is a next state is the model's reading (assumption 4). -/
def Obligations.FailureWritesNothingElse : Prop :=
  ∀ s t : State, step s = .next t → t.result ≠ 0 → EndsStopped s t t.result t.rinfo

/-- R130 to R132: an operation ends OK or with one of the causes the tables list for it. That a FAULT is a
next state is the model's reading (assumption 4). -/
def Obligations.OperationsEndAsListed : Prop :=
  ∀ (i : Instr) (s t : State), exec i s = .next t → ListedEnd i s t.result t.rinfo

/-- R27, R43, R139: two steps with equal configuration, operands, characters of `IN` and `MID` end with
equal results, equal `RESULT` and `RINFO` and equal next `MID`, whatever earlier steps left behind. -/
def Obligations.StepDependsOnInputsOnly : Prop :=
  ∀ s s' t : State, s'.cfg = s.cfg → s'.operands = s.operands → s'.mid = s.mid →
    (∀ a, a < s.operands.inLen.toNat → Memory.read s'.inMem a = Memory.read s.inMem a) →
    step s = .next t → ∃ t', step s' = .next t' ∧ t'.results = t.results ∧ t'.result = t.result ∧
      t'.rinfo = t.rinfo ∧ t'.mid = t.mid

/-- R140: every operation ends, for every value of its operands and every string in `IN`. That an operation
that ends FAULT (an `IN_LEN` above 4113, an illegal INFO, a broken cell-count contract) ends in a next state
too is the model's reading (assumption 4). -/
def Obligations.EveryReadyOperationEnds : Prop :=
  ∀ (i : Instr) (s : State), (s.operands.inLen.toNat ≤ 4113 → State.ready i s) →
    ∃ t, exec i s = .next t

/-- The invariant of Sys2Proof/Safety.lean is kept by every step, from every state that has it (R20, R24,
R32, R125, R130, R137, R139). That an operation that ends FAULT ends in a next state is the model's reading
(assumption 4), and the clause on the sticky bit is about the model's own field (assumption 5). -/
def Obligations.EveryStepKeepsInvariant : Prop :=
  ∀ s t : State, s.Inv → step s = .next t → t.Inv

/-- The reset state has the invariant. That `RESULT` is 0 there is the model's choice (assumption 2). -/
def Obligations.ResetHasInvariant : Prop := State.reset.Inv

/-- Every script of host actions keeps the invariant, from every state that has it (R15, R66, R147). Two of
its parts are the model's choices: after a reset `RESULT` is one of its 13 values because the model resets it
to 0, where R28 gives it no value (assumption 2); and `IN` stays below its capacity because a load of more
than 4113 characters, or a copy of an absent `OUT`, stops with a fault of the action, and because a shorter
`IN_LEN` or a new load drops the old characters (assumption 10). As in `EveryStepKeepsInvariant`, a started
operation that ends FAULT ends in a next state (assumption 4), and the sticky bit is the model's own
(assumption 5). -/
def Obligations.EveryScriptKeepsInvariant : Prop :=
  ∀ (acts : List HostAct) (s t : State), s.Inv → runScript acts s = .next t → t.Inv

/-- R28, R147: after reset `MID.valid` is 0 and no result, no character of `IN` and no character of `OUT`
holds a value. -/
def Obligations.ResetHoldsNoValues : Prop :=
  State.reset.midValid = false ∧ State.reset.results = Results.empty ∧
    (∀ a, Memory.read State.reset.inMem a = none) ∧
    ∀ a, Memory.read State.reset.results.out a = none

/-- R148, R149: reset by the host clears the cache and keeps the configuration. -/
def Obligations.HostResetClearsCache : Prop :=
  ∀ s : State, ∃ t, hostAct .reset s = .next t ∧ t.mid = none ∧ t.cfg = s.cfg ∧
    t.results = Results.empty ∧ ∀ a, Memory.read t.inMem a = none

/-- R20: `Results.empty`, which the statements above use, holds no value anywhere. -/
def Obligations.EmptyResultsHoldNoValue : Prop :=
  Results.empty.chk16 = none ∧ Results.empty.len16 = none ∧ Results.empty.outLen = none ∧
    Results.empty.chgEn = none ∧ Results.empty.dsgEn = none ∧ Results.empty.chgLim = none ∧
    Results.empty.dsgLim = none ∧ Results.empty.ncellv = none ∧ Results.empty.outText = none ∧
    (∀ n, Results.empty.readT n = none) ∧ (∀ n, Results.empty.readS n = none) ∧
    (∀ i, Results.empty.readCell i = none) ∧ (∀ c, Results.empty.readA c = none) ∧
    ∀ a, Memory.read Results.empty.out a = none
end

