-- ==== Sys2Proof/Laws/State.lean ====
section
/-! SUPPORT. One lemma for each field and each update of the state, so that no proof unfolds a record
update. -/

namespace Sys2Proof.Machine

open Sys2Proof

/-! ## A step that ends OK -/

@[simp] theorem State.finish_cfg (s : State) (r : Results) : (s.finish r).cfg = s.cfg := rfl
@[simp] theorem State.finish_operands (s : State) (r : Results) :
    (s.finish r).operands = s.operands := rfl
@[simp] theorem State.finish_inMem (s : State) (r : Results) : (s.finish r).inMem = s.inMem := rfl
@[simp] theorem State.finish_results (s : State) (r : Results) : (s.finish r).results = r := rfl
@[simp] theorem State.finish_result (s : State) (r : Results) : (s.finish r).result = 0 := rfl
@[simp] theorem State.finish_rinfo (s : State) (r : Results) : (s.finish r).rinfo = 0 := rfl
@[simp] theorem State.finish_mid (s : State) (r : Results) : (s.finish r).mid = s.mid := rfl
@[simp] theorem State.finish_faultSeen (s : State) (r : Results) :
    (s.finish r).faultSeen = s.faultSeen := rfl

/-! ## A step that ends REJECT or FAULT -/

@[simp] theorem State.stop_cfg (s : State) (e : Stop) : (s.stop e).cfg = s.cfg := rfl
@[simp] theorem State.stop_operands (s : State) (e : Stop) : (s.stop e).operands = s.operands := rfl
@[simp] theorem State.stop_inMem (s : State) (e : Stop) : (s.stop e).inMem = s.inMem := rfl
@[simp] theorem State.stop_results (s : State) (e : Stop) : (s.stop e).results = Results.empty := rfl
@[simp] theorem State.stop_result (s : State) (e : Stop) : (s.stop e).result = e.cause.code := rfl
@[simp] theorem State.stop_rinfo (s : State) (e : Stop) : (s.stop e).rinfo = e.info := rfl
@[simp] theorem State.stop_mid (s : State) (e : Stop) : (s.stop e).mid = s.mid := rfl
@[simp] theorem State.stop_faultSeen (s : State) (e : Stop) :
    (s.stop e).faultSeen = (s.faultSeen || e.cause.isFault) := rfl

/-! ## The outcome of a check -/

@[simp] theorem State.conclude_ok (s : State) (r : Results) :
    s.conclude (.ok r) = s.finish r := rfl
@[simp] theorem State.conclude_error (s : State) (e : Stop) :
    s.conclude (.error e) = s.stop e := rfl

/-! ## Selecting an operation -/

@[simp] theorem State.withFetchWord_cfg (s : State) (nbits w : Nat) :
    (s.withFetchWord nbits w).cfg = s.cfg := rfl
@[simp] theorem State.withFetchWord_op (s : State) (nbits w : Nat) :
    (s.withFetchWord nbits w).operands.op = opOfTableWord nbits w := rfl
@[simp] theorem State.withFetchWord_inMem (s : State) (nbits w : Nat) :
    (s.withFetchWord nbits w).inMem = s.inMem := rfl
@[simp] theorem State.withFetchWord_results (s : State) (nbits w : Nat) :
    (s.withFetchWord nbits w).results = s.results := rfl
@[simp] theorem State.withFetchWord_mid (s : State) (nbits w : Nat) :
    (s.withFetchWord nbits w).mid = s.mid := rfl
@[simp] theorem State.fetchOp_eq (s : State) : s.fetchOp = s.operands.op := rfl

/-! ## Reset by the host -/

@[simp] theorem State.applyReset_cfg (s : State) : s.applyReset.cfg = s.cfg := rfl
@[simp] theorem State.applyReset_mid (s : State) : s.applyReset.mid = none := rfl
@[simp] theorem State.applyReset_results (s : State) : s.applyReset.results = Results.empty := rfl
@[simp] theorem State.applyReset_inMem (s : State) : s.applyReset.inMem = [] := rfl

/-! ## The results of an operation that writes `OUT` -/

@[simp] theorem Results.ofOut_outLen (f : Text) :
    (Results.ofOut f).outLen = some (BitVec.ofNat 13 f.length) := rfl
@[simp] theorem Results.ofOut_out (f : Text) :
    (Results.ofOut f).out = Memory.writeText [] 0 f := rfl
@[simp] theorem Results.ofOut_tFile (f : Text) : (Results.ofOut f).tFile = [] := rfl
@[simp] theorem Results.ofOut_aFile (f : Text) : (Results.ofOut f).aFile = [] := rfl
@[simp] theorem Results.ofOut_cellv (f : Text) : (Results.ofOut f).cellv = [] := rfl
@[simp] theorem Results.ofOut_ncellv (f : Text) : (Results.ofOut f).ncellv = none := rfl
@[simp] theorem Results.empty_out : Results.empty.out = [] := rfl
@[simp] theorem Results.empty_outLen : Results.empty.outLen = none := rfl

/-! ## The mapper stage -/

@[simp] theorem alarmMap_aFile (cfg : Config) (g : StatusRegs) (x y : BitVec 32) (r : Results) :
    (alarmMap cfg g x y r).aFile = alarmFile cfg.params.alarmTable g := rfl
@[simp] theorem alarmMap_out (cfg : Config) (g : StatusRegs) (x y : BitVec 32) (r : Results) :
    (alarmMap cfg g x y r).out = r.out := rfl
@[simp] theorem alarmMap_outLen (cfg : Config) (g : StatusRegs) (x y : BitVec 32) (r : Results) :
    (alarmMap cfg g x y r).outLen = r.outLen := rfl
@[simp] theorem alarmMap_tFile (cfg : Config) (g : StatusRegs) (x y : BitVec 32) (r : Results) :
    (alarmMap cfg g x y r).tFile = r.tFile := rfl
@[simp] theorem alarmMap_cellv (cfg : Config) (g : StatusRegs) (x y : BitVec 32) (r : Results) :
    (alarmMap cfg g x y r).cellv = r.cellv := rfl
@[simp] theorem alarmMap_ncellv (cfg : Config) (g : StatusRegs) (x y : BitVec 32) (r : Results) :
    (alarmMap cfg g x y r).ncellv = r.ncellv := rfl

end Sys2Proof.Machine
end

