-- ==== Sys2Proof/Laws/Memory.lean ====
section
/-! SUPPORT. The laws of the character spaces: reading after writing, and that every operation keeps the
canonical form. -/

namespace Sys2Proof.Machine

open Sys2Proof

@[simp] theorem Memory.read_nil (a : Nat) : Memory.read [] a = none := rfl

theorem Memory.read_cons (x : Nat) (c : Byte) (m : Memory) (a : Nat) :
    Memory.read ((x, c) :: m) a = if a = x then some c else Memory.read m a := by
  unfold Memory.read
  by_cases h : a = x
  · simp [h]
  · have : (a == x) = false := by simpa using h
    simp [List.lookup_cons, this, h]

/-- A read after a write: the value written at its address, what was there elsewhere. -/
theorem Memory.read_write (m : Memory) (a x : Nat) (b : Byte) :
    Memory.read (Memory.write m a b) x = if x = a then some b else Memory.read m x := by
  induction m with
  | nil => simp [Memory.write, Memory.read_cons]
  | cons c m ih =>
    obtain ⟨y, v⟩ := c
    unfold Memory.write
    split
    · simp [Memory.read_cons]
    · split
      · next h => subst h; simp only [Memory.read_cons]; split <;> rfl
      · next h1 h2 =>
        simp only [Memory.read_cons, ih]
        split
        · next h => subst h; rw [if_neg]; exact fun h => h2 h.symm
        · rfl

theorem Memory.read_writeText (t : Text) : ∀ (m : Memory) (a x : Nat),
    Memory.read (Memory.writeText m a t) x =
      if a ≤ x ∧ x < a + t.length then t[x - a]? else Memory.read m x := by
  induction t with
  | nil => intro m a x; simp [Memory.writeText]
  | cons b t ih =>
    intro m a x
    simp only [Memory.writeText, ih, Memory.read_write, List.length_cons]
    rcases Nat.lt_trichotomy x a with h | h | h
    · rw [if_neg (by omega), if_neg (by omega), if_neg (by omega)]
    · subst h; simp
    · obtain ⟨k, rfl⟩ : ∃ k, x = a + 1 + k := ⟨x - (a + 1), by omega⟩
      have h1 : a + 1 + k - (a + 1) = k := by omega
      have h2 : a + 1 + k - a = k + 1 := by omega
      rw [h1, h2, List.getElem?_cons_succ]
      by_cases hk : k < t.length
      · rw [if_pos (by omega), if_pos (by omega)]
      · rw [if_neg (by omega), if_neg (by omega), if_neg (by omega)]

/-- A string written to an empty space is what the space holds, and nothing else. -/
theorem Memory.read_writeText_nil (t : Text) (x : Nat) :
    Memory.read (Memory.writeText [] 0 t) x = t[x]? := by
  rw [Memory.read_writeText]
  by_cases h : x < t.length
  · rw [if_pos (by omega)]; simp
  · rw [if_neg (by omega)]; simp; omega

theorem mapM_some_iff {α β : Type} (f : α → Option β) (l : List α) (r : List β) :
    l.mapM f = some r ↔ List.Forall₂ (fun a b => f a = some b) l r := by
  induction l generalizing r with
  | nil => simp [eq_comm]
  | cons a l ih =>
    rw [List.mapM_cons]
    cases ha : f a with
    | none => simp [ha, List.forall₂_cons_left_iff]
    | some b =>
      cases hl : l.mapM f with
      | none =>
        simp only [Option.bind_eq_bind, Option.bind_some, Option.bind_none, false_iff,
          reduceCtorEq, List.forall₂_cons_left_iff]
        rintro ⟨b', l', -, h, -⟩
        rw [← ih, hl] at h
        cases h
      | some bs =>
        simp only [Option.bind_eq_bind, Option.bind_some, Option.pure_def, Option.some.injEq,
          List.forall₂_cons_left_iff, ha]
        constructor
        · rintro rfl
          exact ⟨b, bs, rfl, (ih bs).1 hl, rfl⟩
        · rintro ⟨b', l', rfl, h, rfl⟩
          rw [← ih, hl] at h
          cases h
          rfl

/-- `MemRead` gives a string exactly when every character of it holds its value. -/
theorem Memory.readText_eq_some (m : Memory) (a n : Nat) (t : Text) :
    Memory.readText m a n = some t ↔
      t.length = n ∧ ∀ i, i < n → Memory.read m (a + i) = t[i]? := by
  unfold Memory.readText
  rw [mapM_some_iff, List.forall₂_iff_get]
  constructor
  · rintro ⟨hl, h⟩
    simp only [List.length_range] at hl
    refine ⟨hl.symm, fun i hi => ?_⟩
    have := h i (by simpa using hi) (by omega)
    simp only [List.get_eq_getElem, List.getElem_range] at this
    rw [this, List.getElem?_eq_getElem (by omega)]
  · rintro ⟨hl, h⟩
    refine ⟨by simp [hl], fun i h1 h2 => ?_⟩
    have := h i (by omega)
    simp only [List.get_eq_getElem, List.getElem_range]
    rw [this, List.getElem?_eq_getElem (by omega)]

/-- What was written as a string is read back as that string. -/
theorem Memory.readText_writeText (t : Text) :
    Memory.readText (Memory.writeText [] 0 t) 0 t.length = some t := by
  rw [Memory.readText_eq_some]
  refine ⟨rfl, fun i hi => ?_⟩
  rw [Memory.read_writeText_nil, Nat.zero_add]

/-! ## The canonical form -/

theorem Memory.wf_iff (cap : Nat) (m : Memory) :
    Memory.wf cap m = true ↔
      (m.map (·.1)).Pairwise (· < ·) ∧ ∀ c ∈ m, c.1 < cap := by
  simp [Memory.wf, List.all_eq_true]

theorem Memory.mem_write {m : Memory} {a : Nat} {b : Byte} {c : Host.Cell}
    (h : c ∈ Memory.write m a b) : c = (a, b) ∨ c ∈ m := by
  induction m with
  | nil => simpa [Memory.write] using h
  | cons d m ih =>
    obtain ⟨x, v⟩ := d
    unfold Memory.write at h
    split at h
    · simpa using h
    · split at h
      · rcases List.mem_cons.1 h with h | h
        · exact .inl h
        · exact .inr (List.mem_cons_of_mem _ h)
      · rcases List.mem_cons.1 h with h | h
        · exact .inr (h ▸ List.mem_cons_self)
        · exact (ih h).imp id (List.mem_cons_of_mem _)

/-- A write below the capacity keeps the canonical form. -/
theorem Memory.write_wf {cap : Nat} {m : Memory} {a : Nat} {b : Byte}
    (ha : a < cap) (h : Memory.wf cap m = true) : Memory.wf cap (Memory.write m a b) = true := by
  rw [Memory.wf_iff] at h ⊢
  refine ⟨?_, fun c hc => (Memory.mem_write hc).elim (fun e => e ▸ ha) (h.2 c)⟩
  obtain ⟨hp, -⟩ := h
  induction m with
  | nil => simp [Memory.write]
  | cons d m ih =>
    obtain ⟨x, v⟩ := d
    rw [List.map_cons, List.pairwise_cons] at hp
    unfold Memory.write
    split
    · next hax =>
      simp only [List.map_cons, List.pairwise_cons, List.mem_cons]
      refine ⟨?_, hp⟩
      rintro y (rfl | hy)
      · exact hax
      · exact hax.trans (hp.1 y hy)
    · split
      · next hax =>
        subst hax
        simp only [List.map_cons, List.pairwise_cons]
        exact hp
      · next h1 h2 =>
        simp only [List.map_cons, List.pairwise_cons]
        refine ⟨fun y hy => ?_, ih hp.2⟩
        obtain ⟨c, hc, rfl⟩ := List.mem_map.1 hy
        rcases Memory.mem_write hc with rfl | hc
        · show x < a; omega
        · exact hp.1 _ (List.mem_map_of_mem hc)

theorem Memory.writeText_wf {cap : Nat} (t : Text) : ∀ {m : Memory} {a : Nat},
    a + t.length ≤ cap → Memory.wf cap m = true → Memory.wf cap (Memory.writeText m a t) = true := by
  induction t with
  | nil => intro m a _ h; exact h
  | cons b t ih =>
    intro m a ha h
    simp only [List.length_cons] at ha
    exact ih (by omega) (Memory.write_wf (by omega) h)

theorem Memory.nil_wf (cap : Nat) : Memory.wf cap [] = true := rfl

/-- Dropping the characters at and above a length keeps the canonical form. -/
theorem Memory.keepBelow_wf {cap : Nat} {m : Memory} (n : Nat) (h : Memory.wf cap m = true) :
    Memory.wf cap (Memory.keepBelow m n) = true := by
  rw [Memory.wf_iff] at h ⊢
  refine ⟨?_, fun c hc => h.2 c (List.mem_filter.1 hc).1⟩
  exact h.1.sublist (List.filter_sublist.map _)

/-- R28: the spaces of the reset state are in canonical form. -/
theorem reset_memory_wf :
    Memory.wf inCap State.reset.inMem = true ∧ Memory.wf outCap State.reset.results.out = true :=
  ⟨rfl, rfl⟩

/-! ## The string in `OUT` -/

/-- `OUT` delivers the string an operation wrote. -/
theorem Results.outText_ofOut {f : Text} (h : f.length ≤ outCap) :
    (Results.ofOut f).outText = some f := by
  have h' : f.length ≤ 4113 := h
  have : (BitVec.ofNat 13 f.length).toNat = f.length := by
    rw [BitVec.toNat_ofNat]; exact Nat.mod_eq_of_lt (by omega)
  simp only [Results.outText, Results.ofOut_outLen, Results.ofOut_out, this]
  exact Memory.readText_writeText f

end Sys2Proof.Machine
end

