-- ==== Sys2Proof/Laws/Ops.lean ====
section
/-! SUPPORT. What the shared operations can do: the beginning of an operation that reads `IN`, and the
hexadecimal digits. -/

namespace Sys2Proof.Machine

open Sys2Proof

/-! ## The beginning of an operation that reads `IN` -/

/-- R34: `IN_LEN` above the capacity. -/
theorem State.onIn_badInLen {s : State} (h : inCap < s.operands.inLen.toNat) (c : Option Stop)
    (body : Text → Host.Outcome State Fault Refusal) :
    s.onIn c body = .next (s.stop ⟨.badInLen, 0⟩) := by
  unfold State.onIn; rw [if_pos h]

/-- R135: the operation's own contract is tested after `IN_LEN` and before the string. -/
theorem State.onIn_contract {s : State} (h : s.operands.inLen.toNat ≤ inCap) (e : Stop)
    (body : Text → Host.Outcome State Fault Refusal) :
    s.onIn (some e) body = .next (s.stop e) := by
  unfold State.onIn; rw [if_neg (by omega)]

/-- With a legal `IN_LEN`, no broken contract and a string in `IN`, the operation runs on the string. -/
theorem State.onIn_run {s : State} {p : Text} (h : s.operands.inLen.toNat ≤ inCap)
    (hp : s.inText = some p) (body : Text → Host.Outcome State Fault Refusal) :
    s.onIn none body = body p := by
  unfold State.onIn; rw [if_neg (by omega), hp]

/-- Everything `onIn` can answer when it answers a next state. -/
theorem State.onIn_next {s t : State} {c : Option Stop}
    {body : Text → Host.Outcome State Fault Refusal} (h : s.onIn c body = .next t) :
    (inCap < s.operands.inLen.toNat ∧ t = s.stop ⟨.badInLen, 0⟩) ∨
      (s.operands.inLen.toNat ≤ inCap ∧ ∃ e, c = some e ∧ t = s.stop e) ∨
      (s.operands.inLen.toNat ≤ inCap ∧ c = none ∧ ∃ p, s.inText = some p ∧ body p = .next t) := by
  unfold State.onIn at h
  split at h
  · next hlen => exact .inl ⟨hlen, by cases h; rfl⟩
  · next hlen =>
    have hlen : s.operands.inLen.toNat ≤ inCap := by omega
    cases c with
    | some e => exact .inr (.inl ⟨hlen, e, rfl, by cases h; rfl⟩)
    | none =>
      cases hp : s.inText with
      | none => simp [hp] at h
      | some p => simp only [hp] at h; exact .inr (.inr ⟨hlen, rfl, p, rfl, h⟩)

/-- `IN` holds a string exactly when every character below `IN_LEN` holds its value. -/
theorem State.inText_eq_some (s : State) (p : Text) :
    s.inText = some p ↔ p.length = s.operands.inLen.toNat ∧
      ∀ i, i < s.operands.inLen.toNat → Memory.read s.inMem i = p[i]? := by
  simp [State.inText, Memory.readText_eq_some]

/-- What the host loaded is what the block reads. -/
theorem State.loadIn_next {s : State} {p : Text} (h : p.length ≤ inCap) :
    ∃ u, s.loadIn p = .next u ∧ u.inText = some p ∧ u.operands.inLen.toNat = p.length ∧
      u.cfg = s.cfg ∧ u.mid = s.mid ∧
      u.operands = { s.operands with inLen := BitVec.ofNat 13 p.length } := by
  have h' : p.length ≤ 4113 := h
  have hl : (BitVec.ofNat 13 p.length).toNat = p.length := by
    rw [BitVec.toNat_ofNat]; exact Nat.mod_eq_of_lt (by omega)
  refine ⟨{ s with
    inMem := Memory.writeText [] 0 p
    operands := { s.operands with inLen := BitVec.ofNat 13 p.length } },
    by rw [State.loadIn, if_pos h], ?_, hl, rfl, rfl, rfl⟩
  rw [State.inText_eq_some]
  refine ⟨hl.symm, fun i _ => ?_⟩
  exact Memory.read_writeText_nil p i

/-! ## Digits -/

theorem hexVal_lt {c : Byte} {d : Nat} (h : hexVal c = some d) : d < 16 := by
  unfold hexVal at h
  split at h
  · cases h; omega
  · split at h
    · cases h; omega
    · split at h
      · cases h; omega
      · cases h

theorem hexVal_hexDig {v : Nat} (h : v < 16) : hexVal (hexDig v) = some v := by
  interval_cases v <;> decide

theorem isUpperHex_hexDig {v : Nat} (h : v < 16) : isUpperHex (hexDig v) = true := by
  interval_cases v <;> decide

theorem isHex_of_isUpperHex {c : Byte} (h : isUpperHex c = true) : isHex c = true := by
  unfold isUpperHex at h
  unfold isHex hexVal
  have h := of_decide_eq_true h
  rcases h with h | h
  · rw [if_pos h]; rfl
  · rw [if_neg (by omega), if_pos h]; rfl

theorem hexVal_eq_none_iff (c : Byte) : hexVal c = none ↔ isHex c = false := by
  unfold isHex; cases hexVal c <;> simp

@[simp] theorem hexStr_length (n v : Nat) : (hexStr n v).length = n := by
  induction n generalizing v with
  | zero => rfl
  | succ n ih => simp [hexStr, ih]

theorem hexStr_isUpperHex (n v : Nat) : (hexStr n v).all isUpperHex = true := by
  induction n generalizing v with
  | zero => rfl
  | succ n ih =>
    simp only [hexStr, List.all_append, ih, List.all_cons, List.all_nil, Bool.and_true, Bool.true_and]
    exact isUpperHex_hexDig (Nat.mod_lt _ (by decide))

theorem parseHexFrom_append (acc : Nat) (s t : Text) :
    parseHexFrom acc (s ++ t) = (parseHexFrom acc s).bind (fun a => parseHexFrom a t) := by
  induction s generalizing acc with
  | nil => rfl
  | cons c s ih =>
    simp only [List.cons_append, parseHexFrom]
    cases hexVal c with
    | none => rfl
    | some d => exact ih _

/-- R106 (d): reading back what was rendered. -/
theorem parseHexFrom_hexStr (n : Nat) : ∀ acc v, v < 16 ^ n →
    parseHexFrom acc (hexStr n v) = some (acc * 16 ^ n + v) := by
  induction n with
  | zero => intro acc v h; simp at h; subst h; simp [hexStr, parseHexFrom]
  | succ n ih =>
    intro acc v h
    have h1 : v / 16 < 16 ^ n := by
      rw [Nat.div_lt_iff_lt_mul (by decide)]; rwa [Nat.pow_succ] at h
    have h2 : v % 16 < 16 := Nat.mod_lt _ (by decide)
    rw [hexStr, parseHexFrom_append, ih acc _ h1]
    simp only [Option.bind_some, parseHexFrom, hexVal_hexDig h2]
    congr 1
    have := Nat.div_add_mod v 16
    rw [Nat.pow_succ]
    ring_nf
    ring_nf at this
    omega

theorem parseHex_hexStr {n v : Nat} (h : v < 16 ^ n) : parseHex (hexStr n v) = some v := by
  rw [parseHex, parseHexFrom_hexStr n 0 v h]; simp

/-- A string has a value exactly when all its characters are digits. -/
theorem parseHexFrom_isSome (s : Text) : ∀ acc, (parseHexFrom acc s).isSome = s.all isHex := by
  induction s with
  | nil => intro acc; rfl
  | cons c s ih =>
    intro acc
    simp only [parseHexFrom, List.all_cons]
    cases h : hexVal c with
    | none => rw [(hexVal_eq_none_iff c).1 h]; rfl
    | some d =>
      have : isHex c = true := by unfold isHex; rw [h]; rfl
      rw [this, Bool.true_and]; exact ih _

theorem parseHex_isSome (s : Text) : (parseHex s).isSome = s.all isHex := parseHexFrom_isSome s 0

theorem parseHexFrom_lt (s : Text) : ∀ acc v, parseHexFrom acc s = some v →
    v < (acc + 1) * 16 ^ s.length := by
  induction s with
  | nil => intro acc v h; cases h; simp
  | cons c s ih =>
    intro acc v h
    unfold parseHexFrom at h
    cases hc : hexVal c with
    | none => simp [hc] at h
    | some d =>
      simp only [hc] at h
      have h1 := ih _ _ h
      have h2 := hexVal_lt hc
      calc v < (acc * 16 + d + 1) * 16 ^ s.length := h1
        _ ≤ ((acc + 1) * 16) * 16 ^ s.length := Nat.mul_le_mul_right _ (by omega)
        _ = (acc + 1) * 16 ^ (c :: s).length := by rw [List.length_cons, Nat.pow_succ]; ring

/-- R94, R106 (b): `n` digits make a value below 16 to the power `n`. -/
theorem parseHex_lt {s : Text} {v : Nat} (h : parseHex s = some v) : v < 16 ^ s.length := by
  have := parseHexFrom_lt s 0 v h; simpa using this

/-! ## Substrings -/

@[simp] theorem sub_length (s : Text) (off n : Nat) : (sub s off n).length = min n (s.length - off) := by
  simp [sub]

theorem sub_append_right (a b : Text) (n : Nat) : sub (a ++ b) a.length n = b.take n := by
  simp [sub]

/-- The substring that starts after `a` and has the length of `b`. -/
theorem sub_mid (a b c : Text) {off n : Nat} (ho : off = a.length) (hn : n = b.length) :
    sub (a ++ (b ++ c)) off n = b := by
  subst ho hn; simp [sub]

end Sys2Proof.Machine
end

