-- ==== Sys2Proof/Laws/Checksum.lean ====
section
/-! SUPPORT. The two checksum functions as numbers (40_checksum.md R69, R71, R73). -/

namespace Sys2Proof.Machine

open Sys2Proof

@[simp] theorem byteSum_nil : byteSum [] = 0 := rfl

@[simp] theorem byteSum_cons (c : Byte) (s : Text) : byteSum (c :: s) = c.toNat + byteSum s := by
  simp [byteSum]

@[simp] theorem byteSum_append (a b : Text) : byteSum (a ++ b) = byteSum a + byteSum b := by
  simp [byteSum]

/-- R69, the closed form: the 16-bit negation of the sum. -/
theorem pktChk_toNat (s : Text) : (pktChk s).toNat = (65536 - byteSum s % 65536) % 65536 := by
  unfold pktChk
  rw [BitVec.toNat_add, BitVec.toNat_not, BitVec.toNat_ofNat]
  have := Nat.mod_lt (byteSum s) (show 0 < 65536 by decide)
  have h1 : (1 : BitVec 16).toNat = 1 := rfl
  rw [h1]
  omega

theorem pktChk_eq_iff (s t : Text) :
    pktChk s = pktChk t ↔ byteSum s % 65536 = byteSum t % 65536 := by
  rw [← BitVec.toNat_inj, pktChk_toNat, pktChk_toNat]
  have h1 := Nat.mod_lt (byteSum s) (show 0 < 65536 by decide)
  have h2 := Nat.mod_lt (byteSum t) (show 0 < 65536 by decide)
  omega

/-- R73 (c): a changed byte changes the checksum. -/
theorem pktChk_change {a b : Text} {x y : Byte} (h : x ≠ y) :
    pktChk (a ++ x :: b) ≠ pktChk (a ++ y :: b) := by
  rw [Ne, pktChk_eq_iff]
  simp only [byteSum_append, byteSum_cons]
  have hx := x.isLt
  have hy := y.isLt
  have hne : x.toNat ≠ y.toNat := fun e => h (BitVec.eq_of_toNat_eq e)
  omega

theorem lenNibble_toNat (n : BitVec 12) : (lenNibble n).toNat =
    (16 - (n.toNat % 16 + n.toNat / 16 % 16 + n.toNat / 256 % 16) % 16) % 16 := by
  unfold lenNibble
  simp only [BitVec.toNat_add, BitVec.toNat_not, BitVec.extractLsb'_toNat, Nat.shiftRight_eq_div_pow]
  have h1 : (1 : BitVec 4).toNat = 1 := rfl
  have h0 := n.isLt
  rw [h1]
  omega

/-- R71: the combined value as a number. -/
theorem lenChk_toNat (n : BitVec 12) :
    (lenChk n).toNat = n.toNat + 4096 * (lenNibble n).toNat := by
  have hn := n.isLt
  have hb := (lenNibble n).isLt
  unfold lenChk
  rw [BitVec.toNat_or, BitVec.toNat_shiftLeft, BitVec.toNat_setWidth, BitVec.toNat_setWidth,
    Nat.shiftLeft_eq]
  have h1 : n.toNat % 2 ^ 16 = n.toNat := Nat.mod_eq_of_lt (by omega)
  have h2 : (lenNibble n).toNat % 2 ^ 16 * 2 ^ 12 % 2 ^ 16 = 2 ^ 12 * (lenNibble n).toNat := by
    rw [Nat.mod_eq_of_lt (show (lenNibble n).toNat < 2 ^ 16 by omega)]
    rw [Nat.mod_eq_of_lt (by omega)]; omega
  rw [h1, h2, Nat.or_comm, ← Nat.two_pow_add_eq_or_of_lt hn]
  omega

/-- R73 (d): the low 12 bits are the length. -/
theorem lenChk_mod (n : BitVec 12) : (lenChk n).toNat % 4096 = n.toNat := by
  have := n.isLt
  rw [lenChk_toNat]; omega

/-- R73 (e): the values of `LChk` are those whose four nibbles add up to 0 modulo 16. -/
theorem lenChk_iff (l : Nat) (h : l < 65536) :
    (lenChk (BitVec.ofNat 12 l)).toNat = l ↔
      (l % 16 + l / 16 % 16 + l / 256 % 16 + l / 4096) % 16 = 0 := by
  have h1 : l % 2 ^ 12 % 16 = l % 16 := by omega
  have h2 : l % 2 ^ 12 / 16 % 16 = l / 16 % 16 := by omega
  have h3 : l % 2 ^ 12 / 256 % 16 = l / 256 % 16 := by omega
  rw [lenChk_toNat, lenNibble_toNat, BitVec.toNat_ofNat, h1, h2, h3]
  have ha := Nat.mod_lt l (show 0 < 16 by decide)
  have hb := Nat.mod_lt (l / 16) (show 0 < 16 by decide)
  have hc := Nat.mod_lt (l / 256) (show 0 < 16 by decide)
  have hd : l / 4096 < 16 := by omega
  have hl : l % 2 ^ 12 + 4096 * (l / 4096) = l := by omega
  generalize l % 16 + l / 16 % 16 + l / 256 % 16 = k at *
  generalize l / 4096 = d at *
  generalize l % 2 ^ 12 = m at *
  omega

end Sys2Proof.Machine
end

