-- ==== Sys2Proof/Laws/Layouts.lean ====
section
/-! SUPPORT. What a well-formed layout decodes to: one entry for each field, found under its name; and
that a well-formed configuration never lacks a field that DECODE_MFR or DECODE_RT needs (U8). -/

namespace Sys2Proof.Machine

open Sys2Proof

/-! ## The checks of a configuration, one by one -/

theorem Config.sys_wf (c : Config) :
    c.params.layoutSys.wf c.params.minLenSys = true ∧ c.params.layoutSys.sysOk = true := by
  have h := c.meets; simp only [Params.wf, Bool.and_eq_true] at h; exact h.1.1.1.1.1.1

theorem Config.mfr_wf (c : Config) :
    c.params.layoutMfr.wf c.params.minLenMfr = true ∧ c.params.layoutMfr.mfrOk = true := by
  have h := c.meets; simp only [Params.wf, Bool.and_eq_true] at h; exact h.1.1.1.1.1.2

theorem Config.cap_wf (c : Config) :
    c.params.layoutCap.wf c.params.minLenCap = true ∧ c.params.layoutCap.capOk = true := by
  have h := c.meets; simp only [Params.wf, Bool.and_eq_true] at h; exact h.1.1.1.1.2

theorem Config.rt_wf (c : Config) :
    c.params.layoutRt.wf c.params.minLenRt = true ∧ c.params.layoutRt.rtOk = true := by
  have h := c.meets; simp only [Params.wf, Bool.and_eq_true] at h; exact h.1.1.1.2

theorem Config.table_ok (c : Config) : tableOk c.params.alarmTable = true := by
  have h := c.meets; simp only [Params.wf, Bool.and_eq_true] at h; exact h.1.1.2

theorem Config.fetBits_ne (c : Config) : c.params.fetChgBit ≠ c.params.fetDsgBit := by
  have h := c.meets; simp only [Params.wf, Bool.and_eq_true] at h
  exact of_decide_eq_true h.1.2

/-- R58: no status code has two names, and 0x00 has the source's. -/
theorem Config.statusName_ok (c : Config) :
    (c.params.statusName.map (·.1)).Nodup ∧ c.params.statusNameOf 0x00 = some "success" := by
  have h := c.meets; simp only [Params.wf, Bool.and_eq_true] at h
  have h := h.2
  simpa only [Params.statusNameOk, Bool.and_eq_true, decide_eq_true_eq] using h

/-- What R91 and R92 say of a well-formed layout. -/
theorem Layout.wf_facts {y : Layout} {m : Nat} (h : y.wf m = true) :
    (y.fields.map (·.name)).Nodup ∧ (y.skip = 0 ∨ y.skip = 12) ∧
      (∀ f ∈ y.fields, f.widthOk = true ∧ 1 ≤ f.div ∧ y.skip + f.off + f.width ≤ m) ∧
      (∀ g, y.rep = some g → 1 ≤ g.width ∧ g.width ≤ 8 ∧ 1 ≤ g.div ∧ g.max ≤ 16 ∧
        y.skip + g.base ≤ m) := by
  simp only [Layout.wf, Layout.minLenOk, Layout.namesDistinct, Layout.skipOk, Bool.and_eq_true,
    List.all_eq_true, decide_eq_true_eq, FieldDesc.divOk] at h
  obtain ⟨⟨⟨⟨hn, hs⟩, hf⟩, hg⟩, hm, hr⟩ := h
  refine ⟨hn, hs, fun f hfm => ⟨(hf f hfm).1.1, (hf f hfm).1.2, hm f hfm⟩, fun g hrep => ?_⟩
  rw [hrep] at hg hr
  simp only [RepGroup.ok, decide_eq_true_eq] at hg hr
  exact ⟨hg.1, hg.2.1, hg.2.2.1, hg.2.2.2, hr⟩

/-- R6: in a well-formed layout a number has the divisor that the source gives its name. -/
theorem Layout.divisor_of_wf {y : Layout} {m : Nat} (h : y.wf m = true) {f : FieldDesc}
    (hf : f ∈ y.fields) (hk : f.kind = .u ∨ f.kind = .s16) {d : Nat}
    (hd : f.name.divisor = some d) : f.div = d := by
  simp only [Layout.wf, Bool.and_eq_true, List.all_eq_true, FieldDesc.divisorOk,
    decide_eq_true_eq] at h
  exact (h.1.1.2 f hf).2 hk d hd

theorem Layout.hasField_iff {y : Layout} {name : FieldName} {p : FieldDesc → Bool} :
    y.hasField name p = true ↔ ∃ f ∈ y.fields, f.name = name ∧ p f = true := by
  simp [Layout.hasField, List.any_eq_true]

/-! ## Conversions -/

theorem convertU_isSome (d : Nat) (s : Text) : (convertU d s).isSome = s.all isHex := by
  rw [← parseHex_isSome]; unfold convertU; cases parseHex s <;> rfl

theorem convertS16_isSome (d : Nat) (s : Text) : (convertS16 d s).isSome = s.all isHex := by
  rw [← parseHex_isSome]; unfold convertS16; cases parseHex s <;> rfl

theorem pairsOf_flatten : ∀ s : Text, s.length % 2 = 0 → (pairsOf s).flatten = s
  | [], _ => rfl
  | [a], h => by simp at h
  | a :: b :: s, h => by
    have : s.length % 2 = 0 := by simp only [List.length_cons] at h; omega
    simp [pairsOf, pairsOf_flatten s this]

theorem pairsOf_length : ∀ s : Text, (pairsOf s).length = s.length / 2
  | [] => rfl
  | [a] => by simp [pairsOf]
  | a :: b :: s => by simp only [pairsOf, List.length_cons, pairsOf_length s]; omega

theorem mapM_isSome {α β : Type} (f : α → Option β) (l : List α) :
    (l.mapM f).isSome = l.all (fun a => (f a).isSome) := by
  induction l with
  | nil => rfl
  | cons a l ih =>
    rw [List.mapM_cons, List.all_cons, ← ih]
    cases f a with
    | none => rfl
    | some b => cases l.mapM f <;> rfl

theorem textBytes_isSome {s : Text} (h : s.length % 2 = 0) :
    (textBytes s).isSome = s.all isHex := by
  unfold textBytes
  rw [mapM_isSome]
  conv_rhs => rw [← pairsOf_flatten s h]
  rw [List.all_flatten]
  congr 1
  funext pr
  rw [← parseHex_isSome]
  cases parseHex pr <;> rfl

/-- R105: a field of its kind's width fails exactly when one of its characters is no digit. -/
theorem convert_isSome {sep : Text} {f : FieldDesc} {s : Text} (hw : f.widthOk = true)
    (hs : s.length = f.width) : (convert sep f s).isSome = s.all isHex := by
  unfold FieldDesc.widthOk at hw
  unfold convert
  cases hk : f.kind with
  | u => simp [Option.isSome_map, convertU_isSome]
  | s16 => simp [Option.isSome_map, convertS16_isSome]
  | text =>
    simp only [hk, decide_eq_true_eq] at hw
    simp only [Option.isSome_map]
    have := textBytes_isSome (s := s) (by omega)
    unfold convertText
    cases ht : textBytes s <;> simp_all
  | ver =>
    simp only [Option.isSome_map]
    unfold convertVer
    cases s.all isHex <;> rfl

theorem fieldAt_length {p : Text} {y : Layout} {f : FieldDesc}
    (h : y.skip + f.off + f.width ≤ p.length) : (fieldAt p y f).length = f.width := by
  unfold fieldAt; rw [sub_length]; omega

theorem elementAt_length {p : Text} {y : Layout} {g : RepGroup} {i : Nat}
    (h : y.skip + g.base + i * g.width + g.width ≤ p.length) :
    (elementAt p y g i).length = g.width := by
  unfold elementAt; rw [sub_length]; omega

/-! ## The files a decoded layout fills -/

/-- Every field of the layout has its value, in the order of the layout. -/
theorem convertFields_forall₂ {sep p : Text} {y : Layout} {vs : List (FieldName × Value)}
    (h : convertFields sep p y = some vs) :
    List.Forall₂ (fun f nv => nv.1 = f.name ∧ convert sep f (fieldAt p y f) = some nv.2)
      y.fields vs := by
  rw [convertFields, mapM_some_iff] at h
  refine h.imp fun f nv hf => ?_
  rw [Option.map_eq_some_iff] at hf
  obtain ⟨v, hv, rfl⟩ := hf
  exact ⟨rfl, hv⟩

/-- The entry of `T` for a field that converts to a number. -/
theorem lookup_numEntries {fs : List FieldDesc} {vs : List (FieldName × Value)}
    {conv : FieldDesc → Option Value}
    (h : List.Forall₂ (fun f nv => nv.1 = f.name ∧ conv f = some nv.2) fs vs)
    (hn : (fs.map (·.name)).Nodup) {f : FieldDesc} (hf : f ∈ fs) {n : Scaled}
    (hv : conv f = some (.num n)) : (numEntries vs).lookup f.name = some n := by
  induction h with
  | nil => cases hf
  | @cons g nv fs vs hg _ ih =>
    rw [List.map_cons, List.nodup_cons] at hn
    obtain ⟨name, v⟩ := nv
    obtain ⟨rfl, hgv⟩ := hg
    rcases List.mem_cons.1 hf with rfl | hf
    · rw [hv] at hgv; cases hgv
      simp [numEntries]
    · have hne : (f.name == g.name) = false := by
        simp only [beq_eq_false_iff_ne, ne_eq]
        exact fun e => hn.1 (e ▸ List.mem_map_of_mem hf)
      cases v with
      | num m => simp only [numEntries, List.lookup_cons, hne]; exact ih hn.2 hf
      | text t => simp only [numEntries]; exact ih hn.2 hf

/-- The entry of `S` for a field that converts to a string. -/
theorem lookup_textEntries {fs : List FieldDesc} {vs : List (FieldName × Value)}
    {conv : FieldDesc → Option Value}
    (h : List.Forall₂ (fun f nv => nv.1 = f.name ∧ conv f = some nv.2) fs vs)
    (hn : (fs.map (·.name)).Nodup) {f : FieldDesc} (hf : f ∈ fs) {t : Text}
    (hv : conv f = some (.text t)) : (textEntries vs).lookup f.name = some t := by
  induction h with
  | nil => cases hf
  | @cons g nv fs vs hg _ ih =>
    rw [List.map_cons, List.nodup_cons] at hn
    obtain ⟨name, v⟩ := nv
    obtain ⟨rfl, hgv⟩ := hg
    rcases List.mem_cons.1 hf with rfl | hf
    · rw [hv] at hgv; cases hgv
      simp [textEntries]
    · have hne : (f.name == g.name) = false := by
        simp only [beq_eq_false_iff_ne, ne_eq]
        exact fun e => hn.1 (e ▸ List.mem_map_of_mem hf)
      cases v with
      | num m => simp only [textEntries]; exact ih hn.2 hf
      | text t => simp only [textEntries, List.lookup_cons, hne]; exact ih hn.2 hf

/-- A name that no field has is in neither file. -/
theorem lookup_entries_none {fs : List FieldDesc} {vs : List (FieldName × Value)}
    {conv : FieldDesc → Option Value}
    (h : List.Forall₂ (fun f nv => nv.1 = f.name ∧ conv f = some nv.2) fs vs)
    {name : FieldName} (hf : ∀ f ∈ fs, f.name ≠ name) :
    (numEntries vs).lookup name = none ∧ (textEntries vs).lookup name = none := by
  induction h with
  | nil => exact ⟨rfl, rfl⟩
  | @cons g nv fs vs hg _ ih =>
    obtain ⟨nm, v⟩ := nv
    obtain ⟨rfl, -⟩ := hg
    have ih := ih (fun f h => hf f (List.mem_cons_of_mem _ h))
    have hne : (name == g.name) = false := by
      simp only [beq_eq_false_iff_ne, ne_eq]; exact fun e => hf g List.mem_cons_self e.symm
    cases v <;> simp [numEntries, textEntries, List.lookup_cons, hne, ih]

/-! ## `DecodeLayout` -/

/-- R104: a payload that is too short. -/
theorem decodeLayout_tooShort {sep p : Text} {y : Layout} {m k : Nat}
    (h : p.length < neededLength y m k) : decodeLayout sep p y m k = .error .payloadTooShort := by
  rw [decodeLayout, if_pos h]

/-- Everything a successful decode says. -/
theorem decodeLayout_ok {sep p : Text} {y : Layout} {m k : Nat} {d : Decoded}
    (h : decodeLayout sep p y m k = .ok d) :
    neededLength y m k ≤ p.length ∧ convertFields sep p y = some d.values ∧
      convertCells p y k = some d.cells := by
  unfold decodeLayout at h
  split at h
  · cases h
  · next hl =>
    split at h
    · next v e hv he => cases h; exact ⟨by omega, hv, he⟩
    · cases h

/-- A decode that fails gives one of its two causes. -/
theorem decodeLayout_error {sep p : Text} {y : Layout} {m k : Nat} {c : Cause}
    (h : decodeLayout sep p y m k = .error c) : c = .payloadTooShort ∨ c = .fieldDecodeError := by
  unfold decodeLayout at h
  split at h
  · cases h; exact .inl rfl
  · split at h
    · cases h
    · cases h; exact .inr rfl

theorem minLen_le_needed (y : Layout) (m k : Nat) : m ≤ neededLength y m k := by
  unfold neededLength; split <;> omega

/-- A field that converts to a number of a known width. -/
theorem convert_u {sep : Text} {f : FieldDesc} {s : Text} (hk : f.kind = .u) {v : Value}
    (h : convert sep f s = some v) : ∃ x, parseHex s = some x ∧ v = .num ⟨(x : Int), f.div⟩ := by
  simp only [convert, hk, convertU] at h
  cases hp : parseHex s with
  | none => simp [hp] at h
  | some x => simp only [hp, Option.map_some, Option.some.injEq] at h; exact ⟨x, rfl, h.symm⟩

/-- In a decoded payload, the entry of a `U` field. -/
theorem decoded_lookup_u {sep p : Text} {y : Layout} {m k : Nat} {d : Decoded} (hy : y.wf m = true)
    (h : decodeLayout sep p y m k = .ok d) {f : FieldDesc} (hf : f ∈ y.fields) (hk : f.kind = .u) :
    ∃ x, parseHex (fieldAt p y f) = some x ∧
      (numEntries d.values).lookup f.name = some ⟨(x : Int), f.div⟩ := by
  obtain ⟨hl, hv, -⟩ := decodeLayout_ok h
  obtain ⟨hn, -, hw, -⟩ := Layout.wf_facts hy
  have hall := convertFields_forall₂ hv
  obtain ⟨i, hi, hget⟩ := List.getElem_of_mem hf
  have hlen := hall.length_eq
  have hi' := hall.get (i := i) hi (by omega)
  simp only [List.get_eq_getElem, hget] at hi'
  obtain ⟨x, hx, hxv⟩ := convert_u hk hi'.2
  exact ⟨x, hx, lookup_numEntries hall hn hf (hi'.2.trans (congrArg some hxv))⟩

/-- In a decoded payload, the entry of a `TEXT` or `VER` field. -/
theorem decoded_lookup_text {sep p : Text} {y : Layout} {m k : Nat} {d : Decoded}
    (hy : y.wf m = true) (h : decodeLayout sep p y m k = .ok d) {f : FieldDesc} (hf : f ∈ y.fields)
    (hk : f.kind = .text ∨ f.kind = .ver) :
    ∃ t, convert sep f (fieldAt p y f) = some (.text t) ∧
      (textEntries d.values).lookup f.name = some t := by
  obtain ⟨-, hv, -⟩ := decodeLayout_ok h
  obtain ⟨hn, -, -, -⟩ := Layout.wf_facts hy
  have hall := convertFields_forall₂ hv
  obtain ⟨i, hi, hget⟩ := List.getElem_of_mem hf
  have hlen := hall.length_eq
  have hi' := hall.get (i := i) hi (by omega)
  simp only [List.get_eq_getElem, hget] at hi'
  have hc := hi'.2
  obtain ⟨t, ht⟩ : ∃ t, convert sep f (fieldAt p y f) = some (.text t) := by
    rcases hk with hk | hk <;> simp only [convert, hk, Option.map_eq_some_iff] at hc ⊢
    · obtain ⟨t, h1, -⟩ := hc; exact ⟨t, t, h1, rfl⟩
    · obtain ⟨t, h1, -⟩ := hc; exact ⟨t, t, h1, rfl⟩
  exact ⟨t, ht, lookup_textEntries hall hn hf ht⟩

/-- R110: a decoded manufacturer payload always has the four strings, so DECODE_MFR never refuses. -/
theorem identityOf_isSome {c : Config} {p : Text} {d : Decoded}
    (h : decodeMfrLayout c p = .ok d) : ∃ id, identityOf (textEntries d.values) = some id := by
  obtain ⟨hy, hm⟩ := Config.mfr_wf c
  simp only [Layout.mfrOk, Bool.and_eq_true, Layout.hasField_iff, FieldDesc.isKind,
    decide_eq_true_eq] at hm
  obtain ⟨⟨⟨⟨-, f1, h1, n1, k1⟩, f2, h2, n2, k2⟩, f3, h3, n3, k3⟩, f4, h4, n4, k4⟩ := hm
  obtain ⟨t1, -, l1⟩ := decoded_lookup_text hy h h1 (.inl k1)
  obtain ⟨t2, -, l2⟩ := decoded_lookup_text hy h h2 (.inl k2)
  obtain ⟨t3, -, l3⟩ := decoded_lookup_text hy h h3 (.inl k3)
  obtain ⟨t4, -, l4⟩ := decoded_lookup_text hy h h4 (.inr k4)
  rw [n1] at l1; rw [n2] at l2; rw [n3] at l3; rw [n4] at l4
  exact ⟨⟨t1, t2, t3, t4⟩, by simp only [identityOf, l1, l2, l3, l4]⟩

/-- Two fields of a well-formed layout with one name are one field (R91). -/
theorem Layout.field_unique {y : Layout} {m : Nat} (hy : y.wf m = true) {f g : FieldDesc}
    (hf : f ∈ y.fields) (hg : g ∈ y.fields) (h : f.name = g.name) : f = g :=
  List.inj_on_of_nodup_map (Layout.wf_facts hy).1 hf hg h

/-- R97: the entry of a register field is the value of its digits, and it fits the register. -/
theorem decoded_lookup_reg {c : Config} {p : Text} {k w : Nat} {d : Decoded}
    (h : decodeRtLayout c p k = .ok d) {name : FieldName}
    (hr : c.params.layoutRt.hasField name (FieldDesc.isRegister w) = true) :
    ∃ x : Nat, (numEntries d.values).lookup name = some ⟨(x : Int), 1⟩ ∧ x < 16 ^ w ∧
      ∀ f ∈ c.params.layoutRt.fields, f.name = name →
        parseHex (fieldAt p c.params.layoutRt f) = some x := by
  obtain ⟨hy, -⟩ := Config.rt_wf c
  rw [Layout.hasField_iff] at hr
  obtain ⟨f, hf, hn, hk⟩ := hr
  simp only [FieldDesc.isRegister, decide_eq_true_eq] at hk
  obtain ⟨x, hx, hl⟩ := decoded_lookup_u hy h hf hk.1
  rw [hn, hk.2.2] at hl
  refine ⟨x, hl, ?_, fun g hg hgn => ?_⟩
  · have := parseHex_lt hx
    obtain ⟨hlen, -, -⟩ := decodeLayout_ok h
    have hm := ((Layout.wf_facts hy).2.2.1 f hf).2.2
    have hm' := minLen_le_needed c.params.layoutRt c.params.minLenRt k
    rwa [fieldAt_length (by omega), hk.2.1] at this
  · rw [Layout.field_unique hy hg hf (hgn.trans hn.symm)]; exact hx

/-- R115: a decoded realtime payload always has the five registers, so DECODE_RT never refuses; each is
the value of its field's digits (R97). -/
theorem decodedRegs_isSome {c : Config} {p : Text} {k : Nat} {d : Decoded}
    (h : decodeRtLayout c p k = .ok d) :
    ∃ regs : StatusRegs, decodedRegs (numEntries d.values) = some regs ∧
      (numEntries d.values).lookup .vstat = some ⟨(regs.v.toNat : Int), 1⟩ ∧
      (numEntries d.values).lookup .cstat = some ⟨(regs.c.toNat : Int), 1⟩ ∧
      (numEntries d.values).lookup .tstat = some ⟨(regs.t.toNat : Int), 1⟩ ∧
      (numEntries d.values).lookup .wstat = some ⟨(regs.w.toNat : Int), 1⟩ ∧
      (numEntries d.values).lookup .fetst = some ⟨(regs.fet.toNat : Int), 1⟩ ∧
      ∀ f ∈ c.params.layoutRt.fields,
        (f.name = .vstat → parseHex (fieldAt p c.params.layoutRt f) = some regs.v.toNat) ∧
        (f.name = .cstat → parseHex (fieldAt p c.params.layoutRt f) = some regs.c.toNat) ∧
        (f.name = .tstat → parseHex (fieldAt p c.params.layoutRt f) = some regs.t.toNat) ∧
        (f.name = .wstat → parseHex (fieldAt p c.params.layoutRt f) = some regs.w.toNat) ∧
        (f.name = .fetst → parseHex (fieldAt p c.params.layoutRt f) = some regs.fet.toNat) := by
  have hm := (Config.rt_wf c).2
  simp only [Layout.rtOk, Bool.and_eq_true] at hm
  obtain ⟨⟨⟨⟨⟨-, h1⟩, h2⟩, h3⟩, h4⟩, h5⟩ := hm
  obtain ⟨x1, l1, b1, e1⟩ := decoded_lookup_reg h h1
  obtain ⟨x2, l2, b2, e2⟩ := decoded_lookup_reg h h2
  obtain ⟨x3, l3, b3, e3⟩ := decoded_lookup_reg h h3
  obtain ⟨x4, l4, b4, e4⟩ := decoded_lookup_reg h h4
  obtain ⟨x5, l5, b5, e5⟩ := decoded_lookup_reg h h5
  have big : ∀ {x : Nat}, x < 16 ^ 4 → (BitVec.ofInt 16 (x : Int)).toNat = x := fun {x} hx => by
    rw [BitVec.ofInt_natCast, BitVec.toNat_ofNat]; exact Nat.mod_eq_of_lt (by norm_num at hx ⊢; omega)
  have small : ∀ {x : Nat}, x < 16 ^ 2 → (BitVec.ofInt 8 (x : Int)).toNat = x := fun {x} hx => by
    rw [BitVec.ofInt_natCast, BitVec.toNat_ofNat]; exact Nat.mod_eq_of_lt (by norm_num at hx ⊢; omega)
  refine ⟨⟨BitVec.ofInt 16 x1, BitVec.ofInt 16 x2, BitVec.ofInt 16 x3, BitVec.ofInt 16 x4,
    BitVec.ofInt 8 x5⟩, by simp only [decodedRegs, l1, l2, l3, l4, l5], ?_⟩
  simp only [big b1, big b2, big b3, big b4, small b5]
  exact ⟨l1, l2, l3, l4, l5, fun f hf => ⟨e1 f hf, e2 f hf, e3 f hf, e4 f hf, e5 f hf⟩⟩

end Sys2Proof.Machine
end

