-- ==== Sys2Proof/Laws/Exec.lean ====
section
/-! SUPPORT. What each operation can answer when it answers a next state: one inversion lemma for each
meaning, and one for `exec` and `step` that puts them together. -/

namespace Sys2Proof.Machine

open Sys2Proof

theorem execPchk_next {s t : State} (h : execPchk s = .next t) :
    t = s.stop ⟨.badInLen, 0⟩ ∨
      ∃ text, s.inText = some text ∧
        t = s.finish { Results.empty with chk16 := some (pktChk text) } := by
  rcases State.onIn_next h with ⟨-, rfl⟩ | ⟨-, e, he, -⟩ | ⟨-, -, p, hp, hb⟩
  · exact .inl rfl
  · cases he
  · cases hb; exact .inr ⟨p, hp, rfl⟩

theorem execEncode_next {s t : State} (h : execEncode s = .next t) :
    t = s.stop ⟨.badInLen, 0⟩ ∨
      (∃ info reason, s.inText = some info ∧ infoProblem info = some reason ∧
        t = s.stop ⟨.badInfo, reason⟩) ∨
      ∃ info, s.inText = some info ∧ infoProblem info = none ∧
        t = s.finish (Results.ofOut
          (encodeFrame s.operands.addr s.operands.cid1 s.operands.cid2 info)) := by
  rcases State.onIn_next h with ⟨-, rfl⟩ | ⟨-, e, he, -⟩ | ⟨-, -, p, hp, hb⟩
  · exact .inl rfl
  · cases he
  · cases hi : infoProblem p with
    | some reason => simp only [hi] at hb; cases hb; exact .inr (.inl ⟨p, reason, hp, hi, rfl⟩)
    | none => simp only [hi] at hb; cases hb; exact .inr (.inr ⟨p, hp, hi, rfl⟩)

theorem execValidate_next {s t : State} (h : execValidate s = .next t) :
    t = s.stop ⟨.badInLen, 0⟩ ∨
      (∃ raw e, s.inText = some raw ∧ validate raw = .error e ∧ t = s.stop e) ∨
      ∃ raw p, s.inText = some raw ∧ validate raw = .ok p ∧ t = s.finish (Results.ofOut p) := by
  rcases State.onIn_next h with ⟨-, rfl⟩ | ⟨-, e, he, -⟩ | ⟨-, -, raw, hp, hb⟩
  · exact .inl rfl
  · cases he
  · cases hv : validate raw with
    | error e => simp only [hv] at hb; cases hb; exact .inr (.inl ⟨raw, e, hp, hv, rfl⟩)
    | ok p => simp only [hv] at hb; cases hb; exact .inr (.inr ⟨raw, p, hp, hv, rfl⟩)

theorem execDecodeSys_next {s t : State} (h : execDecodeSys s = .next t) :
    t = s.stop ⟨.badInLen, 0⟩ ∨
      (∃ p c, s.inText = some p ∧ decodeSysLayout s.cfg p = .error c ∧ t = s.stop (decodeStop 0x5 c)) ∨
      ∃ p d, s.inText = some p ∧ decodeSysLayout s.cfg p = .ok d ∧ t = s.finish d.results := by
  rcases State.onIn_next h with ⟨-, rfl⟩ | ⟨-, e, he, -⟩ | ⟨-, -, p, hp, hb⟩
  · exact .inl rfl
  · cases he
  · cases hd : decodeSysLayout s.cfg p with
    | error c => simp only [hd] at hb; cases hb; exact .inr (.inl ⟨p, c, hp, hd, rfl⟩)
    | ok d => simp only [hd] at hb; cases hb; exact .inr (.inr ⟨p, d, hp, hd, rfl⟩)

theorem execDecodeCap_next {s t : State} (h : execDecodeCap s = .next t) :
    t = s.stop ⟨.badInLen, 0⟩ ∨
      (∃ p c, s.inText = some p ∧ decodeCapLayout s.cfg p = .error c ∧ t = s.stop (decodeStop 0x7 c)) ∨
      ∃ p d, s.inText = some p ∧ decodeCapLayout s.cfg p = .ok d ∧ t = s.finish d.results := by
  rcases State.onIn_next h with ⟨-, rfl⟩ | ⟨-, e, he, -⟩ | ⟨-, -, p, hp, hb⟩
  · exact .inl rfl
  · cases he
  · cases hd : decodeCapLayout s.cfg p with
    | error c => simp only [hd] at hb; cases hb; exact .inr (.inl ⟨p, c, hp, hd, rfl⟩)
    | ok d => simp only [hd] at hb; cases hb; exact .inr (.inr ⟨p, d, hp, hd, rfl⟩)

theorem execDecodeMfr_next {s t : State} (h : execDecodeMfr s = .next t) :
    t = s.stop ⟨.badInLen, 0⟩ ∨
      (∃ p c, s.inText = some p ∧ decodeMfrLayout s.cfg p = .error c ∧ t = s.stop (decodeStop 0x6 c)) ∨
      ∃ p d fresh, s.inText = some p ∧ decodeMfrLayout s.cfg p = .ok d ∧
        identityOf (textEntries d.values) = some fresh ∧
        t = ({ s with mid := some (cacheUpdate s.mid fresh) } : State).finish
          (identityResults (cacheUpdate s.mid fresh)) := by
  rcases State.onIn_next h with ⟨-, rfl⟩ | ⟨-, e, he, -⟩ | ⟨-, -, p, hp, hb⟩
  · exact .inl rfl
  · cases he
  · cases hd : decodeMfrLayout s.cfg p with
    | error c => simp only [hd] at hb; cases hb; exact .inr (.inl ⟨p, c, hp, hd, rfl⟩)
    | ok d =>
      obtain ⟨fresh, hf⟩ := identityOf_isSome hd
      simp only [hd, hf] at hb; cases hb; exact .inr (.inr ⟨p, d, fresh, hp, hd, hf, rfl⟩)

theorem execDecodeRt_next {s t : State} (h : execDecodeRt s = .next t) :
    t = s.stop ⟨.badInLen, 0⟩ ∨
      (∃ e, cellCountProblem s.operands = some e ∧ t = s.stop e) ∨
      (cellCountProblem s.operands = none ∧ ∃ p c, s.inText = some p ∧
        decodeRtLayout s.cfg p s.operands.cells.toNat = .error c ∧ t = s.stop (decodeStop 0x8 c)) ∨
      (cellCountProblem s.operands = none ∧ ∃ p d regs, s.inText = some p ∧
        decodeRtLayout s.cfg p s.operands.cells.toNat = .ok d ∧
        decodedRegs (numEntries d.values) = some regs ∧
        t = s.finish (alarmMap s.cfg regs s.operands.chgMax s.operands.dsgMax
          (d.rtResults s.operands.cells))) := by
  rcases State.onIn_next h with ⟨-, rfl⟩ | ⟨-, e, he, rfl⟩ | ⟨-, hc, p, hp, hb⟩
  · exact .inl rfl
  · exact .inr (.inl ⟨e, he, rfl⟩)
  · cases hd : decodeRtLayout s.cfg p s.operands.cells.toNat with
    | error c => simp only [hd] at hb; cases hb; exact .inr (.inr (.inl ⟨hc, p, c, hp, hd, rfl⟩))
    | ok d =>
      obtain ⟨regs, hr, -⟩ := decodedRegs_isSome hd
      simp only [hd, hr] at hb; cases hb
      exact .inr (.inr (.inr ⟨hc, p, d, regs, hp, hd, hr, rfl⟩))

/-- R137, R20: a step that answers a next state stops with nothing else written, or finishes with the
results of its operation, and `MID` changes only at the end of DECODE_MFR. -/
theorem exec_next {i : Instr} {s t : State} (h : exec i s = .next t) :
    (∃ e, t = s.stop e) ∨ (∃ r, t = s.finish r) ∨
      (i = .decodeMfr ∧ ∃ fresh, t = ({ s with mid := some (cacheUpdate s.mid fresh) } : State).finish
        (identityResults (cacheUpdate s.mid fresh))) := by
  cases i with
  | pchk =>
    rcases execPchk_next h with rfl | ⟨_, -, rfl⟩
    · exact .inl ⟨_, rfl⟩
    · exact .inr (.inl ⟨_, rfl⟩)
  | lchk => cases h; exact .inr (.inl ⟨_, rfl⟩)
  | encode =>
    rcases execEncode_next h with rfl | ⟨_, _, -, -, rfl⟩ | ⟨_, -, -, rfl⟩
    · exact .inl ⟨_, rfl⟩
    · exact .inl ⟨_, rfl⟩
    · exact .inr (.inl ⟨_, rfl⟩)
  | validate =>
    rcases execValidate_next h with rfl | ⟨_, _, -, -, rfl⟩ | ⟨_, _, -, -, rfl⟩
    · exact .inl ⟨_, rfl⟩
    · exact .inl ⟨_, rfl⟩
    · exact .inr (.inl ⟨_, rfl⟩)
  | decodeSys =>
    rcases execDecodeSys_next h with rfl | ⟨_, _, -, -, rfl⟩ | ⟨_, _, -, -, rfl⟩
    · exact .inl ⟨_, rfl⟩
    · exact .inl ⟨_, rfl⟩
    · exact .inr (.inl ⟨_, rfl⟩)
  | decodeCap =>
    rcases execDecodeCap_next h with rfl | ⟨_, _, -, -, rfl⟩ | ⟨_, _, -, -, rfl⟩
    · exact .inl ⟨_, rfl⟩
    · exact .inl ⟨_, rfl⟩
    · exact .inr (.inl ⟨_, rfl⟩)
  | decodeMfr =>
    rcases execDecodeMfr_next h with rfl | ⟨_, _, -, -, rfl⟩ | ⟨_, _, fresh, -, -, -, rfl⟩
    · exact .inl ⟨_, rfl⟩
    · exact .inl ⟨_, rfl⟩
    · exact .inr (.inr ⟨rfl, fresh, rfl⟩)
  | decodeRt =>
    rcases execDecodeRt_next h with rfl | ⟨_, -, rfl⟩ | ⟨-, _, _, -, -, rfl⟩ | ⟨-, _, _, _, -, -, -, rfl⟩
    · exact .inl ⟨_, rfl⟩
    · exact .inl ⟨_, rfl⟩
    · exact .inl ⟨_, rfl⟩
    · exact .inr (.inl ⟨_, rfl⟩)
  | alarmMap => cases h; exact .inr (.inl ⟨_, rfl⟩)

/-- A step is the decoded operation, or FAULT `IllegalOp` (R64). -/
theorem step_next {s t : State} (h : step s = .next t) :
    (∃ i, decode s.operands.op = .ok i ∧ exec i s = .next t) ∨
      t = s.stop ⟨.illegalOp, s.operands.op.setWidth 8⟩ := by
  unfold step at h
  rw [State.fetchOp_eq] at h
  split at h
  · next i hi => exact .inl ⟨i, hi, h⟩
  · next op hop =>
    have : op = s.operands.op := by
      unfold decode at hop
      split at hop <;> simp_all
    subst this
    cases h
    exact .inr rfl

end Sys2Proof.Machine
end

