-- ==== Sys2Proof/Laws/Frames.lean ====
section
/-! SUPPORT. The shape of an encoded frame and the fields the validator reads in a string
(30_encoding.md R49, 41_frame_encoder.md R75, 42_frame_validator.md R80). -/

namespace Sys2Proof.Machine

open Sys2Proof

/-- R78: the literal for an empty INFO is the general rule. -/
theorem lenField_eq (n : Nat) : lenField n = hexStr 4 (lenChk (BitVec.ofNat 12 n)).toNat := by
  unfold lenField
  split
  · next h => subst h; decide
  · rfl

@[simp] theorem lenField_length (n : Nat) : (lenField n).length = 4 := by
  rw [lenField_eq, hexStr_length]

@[simp] theorem verText_length : verText.length = 2 := rfl

@[simp] theorem frameBody_length (a c1 c2 : BitVec 8) (info : Text) :
    (frameBody a c1 c2 info).length = 12 + info.length := by
  simp [frameBody]; omega

@[simp] theorem encodeFrame_length (a c1 c2 : BitVec 8) (info : Text) :
    (encodeFrame a c1 c2 info).length = 18 + info.length := by
  simp [encodeFrame]; omega

/-- R75, written as a list: marker, body, checksum, terminator. -/
theorem encodeFrame_eq (a c1 c2 : BitVec 8) (info : Text) :
    encodeFrame a c1 c2 info = (soi :: (frameBody a c1 c2 info ++
      hexStr 4 (pktChk (frameBody a c1 c2 info)).toNat)) ++ [eoi] := by
  simp [encodeFrame]

/-- R81: one trailing terminator is not part of the body. -/
theorem bodyLength_terminated (body : Text) : bodyLength (body ++ [eoi]) = body.length := by
  simp [bodyLength]

/-- R81: a missing terminator is not an error. -/
theorem bodyLength_exhausted {body : Text} (h : body.getLast? ≠ some eoi) :
    bodyLength body = body.length := by
  rw [bodyLength, if_neg h]

theorem bodyLength_le (raw : Text) : bodyLength raw ≤ raw.length := by
  unfold bodyLength; split <;> omega

/-- A substring that ends inside the body does not see what follows it. -/
theorem sub_append_left {s t : Text} {off n : Nat} (h : off + n ≤ s.length) :
    sub (s ++ t) off n = sub s off n := by
  unfold sub
  rw [List.drop_append_of_le_length (by omega), List.take_append_of_le_length (by simp; omega)]

/-- The validator accepts exactly the strings that pass every check; it then answers the payload. -/
theorem validate_ok_iff (raw p : Text) :
    validate raw = .ok p ↔
      hdrLen + trailerLen ≤ bodyLength raw ∧ raw[0]? = some soi ∧
        parseHex (sub raw 7 2) = some 0 ∧
        (∃ l, parseHex (sub raw 9 4) = some l ∧ (lenChk (BitVec.ofNat 12 l)).toNat = l ∧
          (BitVec.ofNat 12 l).toNat = bodyLength raw - (hdrLen + trailerLen)) ∧
        (∃ c, parseHex (sub raw (bodyLength raw - 4) 4) = some c ∧
          (pktChk (sub raw 1 (bodyLength raw - 5))).toNat = c) ∧
        p = payloadOf raw := by
  unfold validate checkMarkers checkStatus checkLength checkPacket checkCount
  by_cases h1 : bodyLength raw < hdrLen + trailerLen
  · simp [h1, bind, Except.bind]
  by_cases h2 : raw[0]? = some soi
  · cases h3 : parseHex (sub raw 7 2) with
    | none => simp [h1, h2, bind, Except.bind]
    | some c =>
      by_cases h4 : c = 0
      · cases h5 : parseHex (sub raw 9 4) with
        | none => simp [h1, h2, h4, statusOk, bind, Except.bind]
        | some l =>
          by_cases h6 : (lenChk (BitVec.ofNat 12 l)).toNat = l
          · cases h7 : parseHex (sub raw (bodyLength raw - 4) 4) with
            | none => simp [h1, h2, h4, h6, statusOk, bind, Except.bind]
            | some k =>
              by_cases h8 : (pktChk (sub raw 1 (bodyLength raw - 5))).toNat = k
              · by_cases h9 : (BitVec.ofNat 12 l).toNat = bodyLength raw - (hdrLen + trailerLen)
                · simp only [h1, h2, h4, h6, h8, h9, statusOk, bind, Except.bind, if_true, if_false,
                    pure, Except.pure, Except.ok.injEq]
                  constructor
                  · rintro rfl
                    exact ⟨by omega, trivial, trivial, ⟨l, rfl, h6, h9⟩, ⟨k, rfl, rfl⟩, rfl⟩
                  · rintro ⟨-, -, -, -, -, rfl⟩; rfl
                · simp only [h1, h2, h4, h6, h8, h9, statusOk, bind, Except.bind, if_true, if_false,
                    reduceCtorEq, false_iff]
                  rintro ⟨-, -, -, ⟨l', hl', -, h⟩, -⟩
                  cases hl'; exact h9 h
              · simp only [h1, h2, h4, h6, h8, statusOk, bind, Except.bind, if_true, if_false,
                  reduceCtorEq, false_iff]
                rintro ⟨-, -, -, -, ⟨k', hk', h⟩, -⟩
                cases hk'; exact h8 h
          · simp only [h1, h2, h4, h6, statusOk, bind, Except.bind, if_true, if_false,
              reduceCtorEq, false_iff]
            rintro ⟨-, -, -, ⟨l', hl', h, -⟩, -⟩
            cases hl'; exact h6 h
      · simp [h1, h2, h4, statusOk, bind, Except.bind]
  · simp [h1, h2, bind, Except.bind]

end Sys2Proof.Machine
end

