-- ==== Sys2Proof/Laws/PerInstr.lean ====
section
/-! SUPPORT. Statements made for each operation (R63): its code is a legal value of `OP`, the decoder
reads the operation back from it, and from the word of the opcode table. -/

namespace Sys2Proof.Laws

open Sys2Proof

/-- The code of an operation is legal (R16) and decodes to the operation (R63). -/
def OpRoundTrip.Statement (i : Instr) : Prop :=
  legalOp (encode i) = true ∧ decode (encode i) = .ok i ∧
    decodeTableWord 8 (encode i).toNat = some i

theorem OpRoundTrip.pchk : OpRoundTrip.Statement .pchk := ⟨rfl, rfl, rfl⟩
theorem OpRoundTrip.lchk : OpRoundTrip.Statement .lchk := ⟨rfl, rfl, rfl⟩
theorem OpRoundTrip.encode : OpRoundTrip.Statement .encode := ⟨rfl, rfl, rfl⟩
theorem OpRoundTrip.validate : OpRoundTrip.Statement .validate := ⟨rfl, rfl, rfl⟩
theorem OpRoundTrip.decodeSys : OpRoundTrip.Statement .decodeSys := ⟨rfl, rfl, rfl⟩
theorem OpRoundTrip.decodeMfr : OpRoundTrip.Statement .decodeMfr := ⟨rfl, rfl, rfl⟩
theorem OpRoundTrip.decodeCap : OpRoundTrip.Statement .decodeCap := ⟨rfl, rfl, rfl⟩
theorem OpRoundTrip.decodeRt : OpRoundTrip.Statement .decodeRt := ⟨rfl, rfl, rfl⟩
theorem OpRoundTrip.alarmMap : OpRoundTrip.Statement .alarmMap := ⟨rfl, rfl, rfl⟩

end Sys2Proof.Laws
end

