-- ==== Sys2Proof/Tests/Slice0.lean ====
section
/-! SUPPORT. The model's own tests: a term that each check of WellFormed refuses; the operation words,
written from 30_encoding.md R63; vectors of 95_test_vectors.md (their ids stand in the comments), one
step each on a small state; and, for every statement with hypotheses, a state that meets them. -/

namespace Sys2Proof.Tests

open Sys2Proof Sys2Proof.Machine Sys2Proof.Claims

/-! ## Helpers -/

/-- The bytes of an ASCII string. -/
def ascii (s : String) : Text := s.toList.map (fun c => BitVec.ofNat 8 c.toNat)

/-- A state of the fixture with the string in `IN` and its length in `IN_LEN`. -/
def loaded (text : Text) : State :=
  { State.reset with
    cfg := Config.fixture
    inMem := Memory.writeText [] 0 text
    operands := { Operands.reset with inLen := BitVec.ofNat 13 text.length } }

/-- The same with the operands of DECODE_RT that the vectors use. -/
def loadedRt (text : Text) (cells : BitVec 5) : State :=
  let s := loaded text
  { s with operands := { s.operands with
      op := 0x8, cells := cells, cellsKnown := true, chgMax := 1000, dsgMax := 2000 } }

/-- The same with the operands of ENCODE. -/
def loadedEnc (addr cid1 cid2 : BitVec 8) (text : Text) : State :=
  let s := loaded text
  { s with operands := { s.operands with op := 0x3, addr := addr, cid1 := cid1, cid2 := cid2 } }

/-- The fixture with the operands of ALARM_MAP. -/
def alarms (v c t w : BitVec 16) (fet : BitVec 8) : State :=
  let s := loaded []
  { s with operands := { s.operands with
      op := 0x9, vstat := v, cstat := c, tstat := t, wstat := w, fetst := fet, chgMax := 1000,
      dsgMax := 2000 } }

/-- A view of the next state of an operation. -/
def see {α : Type} (i : Instr) (s : State) (view : State → α) : Option α :=
  match exec i s with
  | .next t => some (view t)
  | .fault _ => none
  | .refused _ => none

/-- `RESULT` and `RINFO`. -/
def ending (t : State) : BitVec 8 × BitVec 8 := (t.result, t.rinfo)

/-- The 14 levels in index order. -/
def levels (t : State) : List (Option Level) := Category.all.map t.results.readA

/-- G of 95_test_vectors.md section 2.4. -/
def frameG : Text := ascii "~22014A00E00201FD2E\r"

/-- RT1 of section 2.9. -/
def rt1 : Text :=
  ascii ("222E146FFB1E00FB00F8FFCE012C00002710007B0000000000000000000CC60CC70CC80CC9" ++
    "0CCA0CCB0CCC0CCD0CCE0CCF0CD00CD10CD20CD30CD40CD5")

/-- RT2 of section 2.9. -/
def rt2 : Text :=
  ascii "04B0113A000000FB00F8FFCE012C00002710007C002100080200000A010CC60CC70CC80CC9"

/-- M1 and M2 of section 2.7. -/
def m1 : Text :=
  ascii "B04A000000004452343831303000000041424300000000000000502D3137000000000000010203"
def m2 : Text :=
  ascii "B04A000000004452343832303000000058595A00000000000000512D3031000000000000020000"

/-- The payload of V45. -/
def cap1 : Text := ascii "B04A0000000027100000303900010932"

theorem loaded_holds (text : Text) (h : text.length ≤ 4113) : InHolds (loaded text) text := by
  refine ⟨?_, h, fun i _ => Memory.read_writeText_nil text i⟩
  show text.length = (BitVec.ofNat 13 text.length).toNat
  rw [BitVec.toNat_ofNat]
  exact (Nat.mod_eq_of_lt (by omega)).symm

/-! ## WellFormed: each check refuses an ill-formed term -/

theorem test_wf_opcode_zero : legalOp 0x0 = false := by decide
theorem test_wf_opcode_above : legalOp 0xA = false := by decide
theorem test_wf_u_width : (FieldDesc.widthOk ⟨.soc, 0, 9, .u, 1⟩) = false := by decide
theorem test_wf_u_width_zero : (FieldDesc.widthOk ⟨.soc, 0, 0, .u, 1⟩) = false := by decide
theorem test_wf_s16_width : (FieldDesc.widthOk ⟨.curr, 0, 2, .s16, 1⟩) = false := by decide
theorem test_wf_text_width : (FieldDesc.widthOk ⟨.product, 0, 3, .text, 1⟩) = false := by decide
theorem test_wf_ver_width : (FieldDesc.widthOk ⟨.fw, 0, 0, .ver, 1⟩) = false := by decide
theorem test_wf_div : (FieldDesc.divOk ⟨.soc, 0, 4, .u, 0⟩) = false := by decide
theorem test_wf_divisor_soc : (FieldDesc.divisorOk ⟨.soc, 0, 4, .u, 10⟩) = false := by decide
theorem test_wf_divisor_energy : (FieldDesc.divisorOk ⟨.chgEnergy, 0, 8, .u, 100⟩) = false := by decide
theorem test_wf_divisor_layout : (Layout.wf ⟨12, [⟨.capacity, 0, 4, .u, 10⟩], none⟩ 16) = false := by
  decide
theorem test_wf_rep_max : (RepGroup.ok ⟨58, 4, 1000, 17⟩) = false := by decide
theorem test_wf_rep_width : (RepGroup.ok ⟨58, 9, 1000, 16⟩) = false := by decide
theorem test_wf_rep_div : (RepGroup.ok ⟨58, 4, 0, 16⟩) = false := by decide
theorem test_wf_names : (Layout.namesDistinct ⟨0, [⟨.soc, 0, 2, .u, 1⟩, ⟨.soc, 2, 2, .u, 1⟩], none⟩) =
    false := by decide
theorem test_wf_skip : (Layout.skipOk ⟨6, [], none⟩) = false := by decide
theorem test_wf_minlen_field : (Layout.minLenOk ⟨12, [⟨.soc, 0, 4, .u, 1⟩], none⟩ 15) = false := by
  decide
theorem test_wf_minlen_rep : (Layout.minLenOk ⟨0, [], some ⟨58, 4, 1000, 16⟩⟩ 57) = false := by decide
theorem test_wf_layout : (Layout.wf ⟨0, [⟨.soc, 0, 9, .u, 1⟩], none⟩ 9) = false := by decide
theorem test_wf_sys : (Layout.sysOk ⟨0, [⟨.cellCount, 0, 2, .u, 1⟩], none⟩) = false := by decide
theorem test_wf_mfr : (Layout.mfrOk { Params.fixture.layoutMfr with skip := 0 }) = false := by decide
theorem test_wf_cap : (Layout.capOk ⟨12, [⟨.curr, 0, 4, .s16, 1⟩], none⟩) = false := by decide
theorem test_wf_rt : (Layout.rtOk { Params.fixture.layoutRt with rep := none }) = false := by decide
theorem test_wf_rows : rowsComplete (Params.fixture.alarmTable.drop 1) = false := by decide
theorem test_wf_packvolt : (AlarmRow.packVoltOk ⟨.highPackVolt, .v, 0x0002, 0x0001⟩) = false := by decide
theorem test_wf_masks : (AlarmRow.masksDisjoint ⟨.lowSoc, .w, 0x0003, 0x0001⟩) = false := by decide
theorem test_wf_failure_bits : failureBitsOwn
    [⟨.internalFailure, .w, 0, 0x0006⟩, ⟨.fuseBlown, .w, 0x0004, 0⟩] = false := by decide
theorem test_wf_table : tableOk [] = false := by decide
theorem test_wf_fet_bits : (Params.fetBitsOk { Params.fixture with fetDsgBit := 0 }) = false := by decide
theorem test_wf_status_twice : (Params.statusNameOk { Params.fixture with
    statusName := [(0x00, "success"), (0x00, "again")] }) = false := by decide
theorem test_wf_status_success : (Params.statusNameOk { Params.fixture with statusName := [] }) =
    false := by decide
theorem test_wf_params : (Params.wf { Params.fixture with minLenRt := 57 }) = false := by decide

/-! ## The operation words, bit by bit from R63 -/

theorem test_decode_pchk : decode 0b0001 = .ok .pchk := by decide
theorem test_decode_lchk : decode 0b0010 = .ok .lchk := by decide
theorem test_decode_encode : decode 0b0011 = .ok .encode := by decide
theorem test_decode_validate : decode 0b0100 = .ok .validate := by decide
theorem test_decode_decodeSys : decode 0b0101 = .ok .decodeSys := by decide
theorem test_decode_decodeMfr : decode 0b0110 = .ok .decodeMfr := by decide
theorem test_decode_decodeCap : decode 0b0111 = .ok .decodeCap := by decide
theorem test_decode_decodeRt : decode 0b1000 = .ok .decodeRt := by decide
theorem test_decode_alarmMap : decode 0b1001 = .ok .alarmMap := by decide
theorem test_decode_reserved : decode 0b1010 = .error (.reservedOp 0b1010) := by decide
theorem test_table_word : decodeTableWord 8 0x09 = some .alarmMap := by decide

/-! ## Vectors -/

/-- V2. -/
theorem test_V2_pchk : see .pchk (loaded (ascii "22014A42E00201")) (fun t => t.results.chk16) =
    some (some 0xFD28) := by decide
/-- V10. -/
theorem test_V10_pchk_empty : see .pchk (loaded []) (fun t => t.results.chk16) = some (some 0) := by
  decide
/-- Section 2.2, the rows 0x01F and 0xFFF. -/
theorem test_lchk : lenChk 0x01F = 0x001F ∧ lenChk 0xFFF = 0x3FFF ∧ lenChk 0x000 = 0 := by decide
/-- V3. -/
theorem test_V3_lchk : see .lchk { loaded [] with operands := { Operands.reset with len12 := 2 } }
    (fun t => t.results.len16) = some (some 0xE002) := by decide
/-- V1. -/
theorem test_V1_encode : see .encode (loadedEnc 0x01 0x4A 0x42 (ascii "01"))
    (fun t => t.results.outText) = some (some (ascii "~22014A42E00201FD28\r")) := by decide
/-- V19h. -/
theorem test_V19h_encode : see .encode (loadedEnc 0x01 0x4A 0x42 (ascii "0a")) ending =
    some (0x83, 3) := by decide
/-- V23. -/
theorem test_V23_validate : see .validate (loaded (ascii "~22014a00e00201fcee\r"))
    (fun t => t.results.outText) = some (some (ascii "01")) := by decide
/-- V36. -/
theorem test_V36_validate : see .validate (loaded (ascii "~22014A00E0020102FCCC\r")) ending =
    some (0x46, 0) := by decide
/-- V37a. -/
theorem test_V37a_decodeSys : see .decodeSys (loaded (ascii "1003E8"))
    (fun t => (t.results.readT .cellCount, t.results.readT .chgLimit)) =
    some (some ⟨16, 1⟩, some ⟨1000, 100⟩) := by decide
/-- V38. -/
theorem test_V38_decodeSys : see .decodeSys (loaded (ascii "1003EG"))
    (fun t => (ending t, t.results.readT .cellCount)) = some ((0x48, 0), none) := by decide
/-- V40. -/
theorem test_V40_decodeMfr : see .decodeMfr (loaded m1) (fun t => t.mid) =
    some (some ⟨ascii "DR48100", ascii "ABC", ascii "P-17", ascii "01.02.03"⟩) := by decide
/-- V41. -/
theorem test_V41_decodeMfr : see .decodeMfr
    { loaded m2 with mid := some ⟨ascii "DR48100", ascii "ABC", ascii "P-17", ascii "01.02.03"⟩ }
    (fun t => (t.results.readS .product, t.mid.map (·.fw))) =
    some (some (ascii "ABC"), some (ascii "01.02.03")) := by decide
/-- V45. -/
theorem test_V45_decodeCap : see .decodeCap (loaded cap1)
    (fun t => (t.results.readT .capacity, t.results.readT .dsgEnergy)) =
    some (some ⟨10000, 100⟩, some ⟨67890, 10⟩) := by decide
/-- V46. -/
theorem test_V46_decodeCap : see .decodeCap (loaded (cap1.take 31)) ending = some (0x47, 7) := by
  decide
/-- V52. -/
theorem test_V52_decodeRt : see .decodeRt (loadedRt rt2 4)
    (fun t => ([t.results.readT .temp3, t.results.readCell 3, t.results.readCell 4],
      t.results.readA .lowCellVolt, [t.results.chgLim, t.results.dsgLim])) =
    some ([some ⟨-50, 10⟩, some ⟨3273, 1000⟩, none], some .warning, [some 0, some 2000]) := by
  decide
/-- V56, with RT2. -/
theorem test_V56_decodeRt : see .decodeRt (loadedRt rt2 17) ending = some (0x84, 2) := by decide
/-- V65. -/
theorem test_V65_alarmMap : see .alarmMap (alarms 0xFFFF 0xFFFF 0xFFFF 0xFFFF 0xFF) levels =
    some ((List.replicate 7 (some Level.protection) ++ [some .warning]) ++
      List.replicate 6 (some .protection)) := by decide
/-- V66. -/
theorem test_V66_alarmMap : see .alarmMap (alarms 0 0 0 0x0008 0x02)
    (fun t => (t.results.chgEn, t.results.dsgEn, t.results.chgLim, t.results.dsgLim)) =
    some (some true, some false, some 1000, some 0) := by decide
/-- V81. -/
theorem test_V81_reserved :
    (match step { loaded [] with operands := { Operands.reset with op := 0xA } } with
      | .next t => some (ending t)
      | .fault _ => none
      | .refused _ => none) = some (0x81, 0x0A) := by decide
/-- F6, F8. -/
theorem test_F6_s16 : convertS16 100 (ascii "FB1E") = some ⟨-1250, 100⟩ ∧
    convertS16 10 (ascii "8000") = some ⟨-32768, 10⟩ := by decide
/-- F14, F15, F20, F21. -/
theorem test_F14_text : convertText (ascii "20204142432020000000") = some (ascii "ABC") ∧
    convertText (ascii "00410042004300000000") = some (ascii "ABC") ∧
    convertText (ascii "0920410D0A0000000000") = some (ascii "A") ∧
    convertText (ascii "4100200042") = some (ascii "A B") := by decide
/-- F23, F24, F26. -/
theorem test_F24_ver : convertVer [0x2E] (ascii "010203") = some (ascii "01.02.03") ∧
    convertVer [0x2E] (ascii "1a2B") = some (ascii "1a.2B") ∧
    convertVer [0x2E] (ascii "01G3") = none := by decide
/-- P1, step 3, as a script of the host. -/
theorem test_P1_script : (match runScript requestRt (loaded []) with
    | .next t => t.results.outText
    | .fault _ => none
    | .refused _ => none) = some (ascii "~22014A42E00201FD28\r") := by decide

/-! ## Witnesses: for each statement with hypotheses, values that meet them all -/

/-- `IN` holds exactly the zeros of `n` digits: for the boundary lengths of ENCODE. -/
def zeros (n : Nat) : Text := List.replicate n 0x30

theorem zeros_length (n : Nat) : (zeros n).length = n := List.length_replicate

theorem loadedEnc_holds (a b c : BitVec 8) (text : Text) (h : text.length ≤ 4113) :
    InHolds (loadedEnc a b c text) text := loaded_holds text h

theorem loadedRt_holds (n : BitVec 5) (text : Text) (h : text.length ≤ 4113) :
    InHolds (loadedRt text n) text := loaded_holds text h

theorem zeros_legal (n : Nat) (h : n % 2 = 0) (h2 : n ≤ 4094) : LegalInfo (zeros n) := by
  refine ⟨by rw [zeros_length]; exact h, by rw [zeros_length]; exact h2, fun c hc => ?_⟩
  rw [List.eq_of_mem_replicate hc]; decide

theorem witness_StepRunsDecodedInstruction :
    decode (loadedRt [] 0).operands.op = .ok .decodeRt := by decide
theorem witness_DecodeInvertsEncode : decode 0x9 = .ok .alarmMap := by decide
theorem witness_ReservedOpEndsIllegalOp_low : (loaded []).operands.op = 0x0 := by decide
theorem witness_ReservedOpEndsIllegalOp_high :
    0xA ≤ { loaded [] with operands := { Operands.reset with op := 0xA } }.operands.op.toNat ∧
    0xA ≤ { loaded [] with operands := { Operands.reset with op := 0xF } }.operands.op.toNat := by
  decide
theorem witness_InLenAboveCapacityFaults :
    4113 < { loaded [] with operands := { Operands.reset with inLen := 4114 } }.operands.inLen.toNat := by
  decide
theorem witness_PchkDeliversPacketChecksum :
    InHolds (loaded []) [] ∧ InHolds (loaded (zeros 4113)) (zeros 4113) :=
  ⟨loaded_holds _ (by decide), loaded_holds _ (zeros_length _).le⟩
theorem witness_PacketChecksumLaws : (0x00 : Byte) ≠ 0xFF := by decide
theorem witness_LengthChecksumLaws : lenChk 0x01F = lenChk 0x01F ∧
    (∀ j, j < 4 → ((0xE003 : BitVec 16).extractLsb' (4 * j) 4 = (lenChk 2).extractLsb' (4 * j) 4 ↔
      j ≠ 0)) ∧
    ∀ j, j < 4 → ((0xF002 : BitVec 16).extractLsb' (4 * j) 4 = (lenChk 2).extractLsb' (4 * j) 4 ↔
      j ≠ 3) := by decide
theorem witness_EncodeDeliversFrame_empty : InHolds (loadedEnc 1 0x4A 0x42 []) [] ∧ LegalInfo [] :=
  ⟨loadedEnc_holds _ _ _ _ (by decide), zeros_legal 0 (by decide) (by decide)⟩
theorem witness_EncodeDeliversFrame_longest :
    InHolds (loaded (zeros 4094)) (zeros 4094) ∧ LegalInfo (zeros 4094) :=
  ⟨loaded_holds _ (by rw [zeros_length]; decide), zeros_legal _ (by decide) (by decide)⟩
theorem witness_EncodeFaultsBadInfo_odd :
    InHolds (loaded (zeros 4095)) (zeros 4095) ∧ (zeros 4095).length % 2 ≠ 0 :=
  ⟨loaded_holds _ (by rw [zeros_length]; decide), by rw [zeros_length]; decide⟩
theorem witness_EncodeFaultsBadInfo_long : InHolds (loaded (zeros 4096)) (zeros 4096) ∧
    (zeros 4096).length % 2 = 0 ∧ 4094 < (zeros 4096).length :=
  ⟨loaded_holds _ (by rw [zeros_length]; decide), by rw [zeros_length], by rw [zeros_length]; decide⟩
theorem witness_EncodeFaultsBadInfo_digit : InHolds (loaded (ascii "0a")) (ascii "0a") ∧
    (ascii "0a").length % 2 = 0 ∧ (ascii "0a").length ≤ 4094 ∧ ∃ c ∈ ascii "0a",
      ¬((0x30 ≤ c.toNat ∧ c.toNat ≤ 0x39) ∨ (0x41 ≤ c.toNat ∧ c.toNat ≤ 0x46)) :=
  ⟨loaded_holds _ (by decide), by decide⟩
theorem witness_EncodedFrameShape : LegalInfo (zeros 46) ∧
    encodeFrame 1 0x4A 0xB0 (zeros 46) = encodeFrame 1 0x4A 0xB0 (zeros 46) :=
  ⟨zeros_legal _ (by decide) (by decide), rfl⟩

/-! VALIDATE: G has a terminator; a body of 17 characters without one is the shortest. -/

theorem witness_ValidateDeliversPayload : InHolds (loaded frameG) frameG ∧
    ∃ body : Text, HasBody frameG body ∧ 17 ≤ body.length ∧ body[0]? = some 0x7E ∧
      parseHex (sub body 7 2) = some 0 ∧ parseHex (sub body 9 4) = some 0xE002 ∧
      (lenChk (BitVec.ofNat 12 0xE002)).toNat = 0xE002 ∧
      parseHex (sub body (body.length - 4) 4) = some 0xFD2E ∧
      (pktChk (sub body 1 (body.length - 5))).toNat = 0xFD2E ∧ 0xE002 % 4096 = body.length - 17 :=
  ⟨loaded_holds _ (by decide), ascii "~22014A00E00201FD2E", by decide⟩
theorem witness_ValidateDeliversPayload_shortest : ∃ body : Text, InHolds (loaded body) body ∧
    HasBody body body ∧ body.length = 17 ∧ body[0]? = some 0x7E ∧
      parseHex (sub body 7 2) = some 0 ∧ parseHex (sub body 9 4) = some 0 ∧
      (lenChk (BitVec.ofNat 12 0)).toNat = 0 ∧
      parseHex (sub body (body.length - 4) 4) = some 0xFDA6 ∧
      (pktChk (sub body 1 (body.length - 5))).toNat = 0xFDA6 ∧ 0 % 4096 = body.length - 17 :=
  ⟨ascii "~22014A000000FDA6", loaded_holds _ (by decide), by decide⟩
theorem witness_ValidateRejectsShortOrUnmarked_short : InHolds (loaded (ascii "~22014A00E00201F\r"))
    (ascii "~22014A00E00201F\r") ∧ HasBody (ascii "~22014A00E00201F\r") (ascii "~22014A00E00201F") ∧
      (ascii "~22014A00E00201F").length = 16 :=
  ⟨loaded_holds _ (by decide), by decide⟩
theorem witness_ValidateRejectsShortOrUnmarked_marker : InHolds (loaded (ascii "!22014A000000FDA6"))
    (ascii "!22014A000000FDA6") ∧ HasBody (ascii "!22014A000000FDA6") (ascii "!22014A000000FDA6") ∧
      (ascii "!22014A000000FDA6").length = 17 ∧ (ascii "!22014A000000FDA6")[0]? ≠ some 0x7E :=
  ⟨loaded_holds _ (by decide), by decide⟩
theorem witness_ValidateRejectsStatus_digit : ∃ raw : Text, InHolds (loaded raw) raw ∧
    HasBody raw raw ∧ 17 ≤ raw.length ∧ raw[0]? = some 0x7E ∧ parseHex (sub raw 7 2) = none :=
  ⟨ascii "~22014A0G0000FDA6", loaded_holds _ (by decide), by decide⟩
theorem witness_ValidateRejectsStatus_code : ∃ raw : Text, InHolds (loaded raw) raw ∧
    HasBody raw raw ∧ 17 ≤ raw.length ∧ raw[0]? = some 0x7E ∧ parseHex (sub raw 7 2) = some 0xFF :=
  ⟨ascii "~22014AFf0000FDA6", loaded_holds _ (by decide), by decide⟩
theorem witness_ValidateRejectsLengthField_digit : ∃ raw : Text, InHolds (loaded raw) raw ∧
    HasBody raw raw ∧ 17 ≤ raw.length ∧ raw[0]? = some 0x7E ∧ parseHex (sub raw 7 2) = some 0 ∧
      parseHex (sub raw 9 4) = none :=
  ⟨ascii "~22014A00E0G201FD2E", loaded_holds _ (by decide), by decide⟩
theorem witness_ValidateRejectsLengthField_value : ∃ raw : Text, InHolds (loaded raw) raw ∧
    HasBody raw raw ∧ 17 ≤ raw.length ∧ raw[0]? = some 0x7E ∧ parseHex (sub raw 7 2) = some 0 ∧
      parseHex (sub raw 9 4) = some 0xE003 ∧ (lenChk (BitVec.ofNat 12 0xE003)).toNat ≠ 0xE003 :=
  ⟨ascii "~22014A00E00301FD2E", loaded_holds _ (by decide), by decide⟩
theorem witness_ValidateRejectsPacketChecksum_digit : ∃ raw : Text, InHolds (loaded raw) raw ∧
    HasBody raw raw ∧ 17 ≤ raw.length ∧ raw[0]? = some 0x7E ∧ parseHex (sub raw 7 2) = some 0 ∧
      parseHex (sub raw 9 4) = some 0xE002 ∧ (lenChk (BitVec.ofNat 12 0xE002)).toNat = 0xE002 ∧
      parseHex (sub raw (raw.length - 4) 4) = none :=
  ⟨ascii "~22014A00E00201FD2G", loaded_holds _ (by decide), by decide⟩
theorem witness_ValidateRejectsPacketChecksum_value : ∃ raw : Text, InHolds (loaded raw) raw ∧
    HasBody raw raw ∧ 17 ≤ raw.length ∧ raw[0]? = some 0x7E ∧ parseHex (sub raw 7 2) = some 0 ∧
      parseHex (sub raw 9 4) = some 0xE002 ∧ (lenChk (BitVec.ofNat 12 0xE002)).toNat = 0xE002 ∧
      parseHex (sub raw (raw.length - 4) 4) = some 0xFD2F ∧
      (pktChk (sub raw 1 (raw.length - 5))).toNat ≠ 0xFD2F :=
  ⟨ascii "~22014A00E00201FD2F", loaded_holds _ (by decide), by decide⟩
theorem witness_ValidateRejectsCount : ∃ raw : Text, InHolds (loaded raw) raw ∧
    HasBody raw raw ∧ 17 ≤ raw.length ∧ raw[0]? = some 0x7E ∧ parseHex (sub raw 7 2) = some 0 ∧
      parseHex (sub raw 9 4) = some 0xE002 ∧ (lenChk (BitVec.ofNat 12 0xE002)).toNat = 0xE002 ∧
      parseHex (sub raw (raw.length - 4) 4) = some 0xFD8F ∧
      (pktChk (sub raw 1 (raw.length - 5))).toNat = 0xFD8F ∧ 0xE002 % 4096 ≠ raw.length - 17 :=
  ⟨ascii "~22014A00E002FD8F", loaded_holds _ (by decide), by decide⟩
theorem witness_EncodeThenValidateRoundTrip_ok : InHolds (loadedEnc 1 0x4A 0 (zeros 4094)) (zeros 4094) ∧
    LegalInfo (zeros 4094) ∧ (loadedEnc 1 0x4A 0 (zeros 4094)).operands.cid2 = 0 :=
  ⟨loadedEnc_holds _ _ _ _ (by rw [zeros_length]; decide), zeros_legal _ (by decide) (by decide), rfl⟩
theorem witness_EncodeThenValidateRoundTrip_status : InHolds (loadedEnc 1 0x4A 0xFF []) [] ∧
    LegalInfo [] ∧ (loadedEnc 1 0x4A 0xFF []).operands.cid2 ≠ 0 :=
  ⟨loadedEnc_holds _ _ _ _ (by decide), zeros_legal 0 (by decide) (by decide), by decide⟩

/-- The body of G, accepted with and without its terminator. Of its 19 characters 0, 1, 6, 7, 8, 9, 12, 13,
14, 15 and 18 are the ends of the ranges of the clauses; `0E` is a status that the changed field holds. -/
theorem witness_OneCorruptCharacterIsRejected : ∃ body : Text,
    validate (body ++ [0x0D]) = .ok (ascii "01") ∧ validate body = .ok (ascii "01") ∧
      HasBody (body ++ [0x0D]) body ∧ HasBody body body ∧ body.length - 4 = 15 ∧
      body[0]? = some 0x7E ∧ (0x7F : Byte) ≠ 0x7E ∧ body[7]? = some 0x30 ∧ body[8]? = some 0x30 ∧
      hexVal 0x47 = none ∧ hexVal 0x45 ≠ none ∧ (0x45 : Byte) ≠ 0x30 ∧
      HasBody (body.set 8 0x45 ++ [0x0D]) (body.set 8 0x45) ∧ body[9]? = some 0x45 ∧
      hexVal 0x44 ≠ hexVal 0x45 ∧ body[12]? = some 0x32 ∧ hexVal 0x33 ≠ hexVal 0x32 ∧
      (0x65 : Byte) ≠ 0x45 ∧ hexVal 0x65 = hexVal 0x45 ∧ body[1]? = some 0x32 ∧
      body[6]? = some 0x41 ∧ body[13]? = some 0x30 ∧ body[14]? = some 0x31 ∧ (0x61 : Byte) ≠ 0x41 ∧
      body[15]? = some 0x46 ∧ hexVal 0x30 ≠ hexVal 0x46 ∧ hexVal 0x66 = hexVal 0x46 ∧
      body[18]? = some 0x45 ∧ hexVal 0x47 ≠ hexVal 0x45 ∧ HasBody (body.set 18 0x65) (body.set 18 0x65) ∧
      HasBody (body.set 18 0x0D ++ [0x0D]) (body.set 18 0x0D) ∧ 18 + 1 = body.length ∧
      18 ≤ body.length :=
  ⟨ascii "~22014A00E00201FD2E", rfl, rfl, by decide⟩
theorem witness_OneCorruptCharacterIsRejected_shortest : ∃ body : Text,
    validate body = .ok [] ∧ HasBody body body ∧ body[16]? = some 0x36 ∧ (0x0D : Byte) ≠ 0x36 ∧
      16 + 1 = body.length ∧ body.length = 17 :=
  ⟨ascii "~22014A000000FDA6", rfl, by decide⟩
theorem witness_TruncatedFrameIsRejected :
    validate (ascii "~22014A00E00201FD2E" ++ [0x0D]) = .ok (ascii "01") ∧
      16 < (ascii "~22014A00E00201FD2E").length ∧ 17 < (ascii "~22014A00E00201FD2E").length ∧
      (ascii "~22014A00E00201FD2E")[16]? ≠ some 0x0D ∧ 18 < (ascii "~22014A00E00201FD2E").length :=
  ⟨rfl, by decide⟩
/-- An INFO whose last character is 0x0D, at position 16 of the body. -/
theorem witness_TruncatedFrameIsRejected_terminator : ∃ body : Text,
    validate (body ++ [0x0D]) = .ok (ascii "010\r") ∧ 17 < body.length ∧ body[16]? = some 0x0D :=
  ⟨ascii "~22014A00C004010\rFCF1", rfl, by decide⟩

/-! The decoders, with the fixture. -/

theorem witness_PayloadTooShortIsReported_sys : InHolds (loaded (ascii "1003E")) (ascii "1003E") ∧
    (ascii "1003E").length < (loaded (ascii "1003E")).cfg.params.minLenSys :=
  ⟨loaded_holds _ (by decide), by decide⟩
theorem witness_PayloadTooShortIsReported_mfr : InHolds (loaded (m1.take 77)) (m1.take 77) ∧
    (m1.take 77).length < (loaded (m1.take 77)).cfg.params.minLenMfr :=
  ⟨loaded_holds _ (by decide), by decide⟩
theorem witness_PayloadTooShortIsReported_cap : InHolds (loaded (cap1.take 31)) (cap1.take 31) ∧
    (cap1.take 31).length < (loaded (cap1.take 31)).cfg.params.minLenCap :=
  ⟨loaded_holds _ (by decide), by decide⟩
theorem witness_PayloadTooShortIsReported_rt : InHolds (loadedRt (rt2.take 73) 4) (rt2.take 73) ∧
    ∃ g, (loadedRt (rt2.take 73) 4).cfg.params.layoutRt.rep = some g ∧
      (loadedRt (rt2.take 73) 4).operands.cellsKnown = true ∧
      (loadedRt (rt2.take 73) 4).operands.cells.toNat ≤ 16 ∧ (rt2.take 73).length <
        (loadedRt (rt2.take 73) 4).cfg.params.layoutRt.skip + g.base +
          (loadedRt (rt2.take 73) 4).operands.cells.toNat * g.width :=
  ⟨loadedRt_holds _ _ (by decide), ⟨58, 4, 1000, 16⟩, by decide⟩
theorem witness_PayloadTooShortIsReported_fixed : InHolds (loadedRt (rt2.take 57) 0) (rt2.take 57) ∧
    ∃ g, (loadedRt (rt2.take 57) 0).cfg.params.layoutRt.rep = some g ∧
      (loadedRt (rt2.take 57) 0).operands.cellsKnown = true ∧
      (loadedRt (rt2.take 57) 0).operands.cells.toNat ≤ 16 ∧
      (rt2.take 57).length < (loadedRt (rt2.take 57) 0).cfg.params.minLenRt :=
  ⟨loadedRt_holds _ _ (by decide), ⟨58, 4, 1000, 16⟩, by decide⟩
theorem witness_FieldDecodeErrorLeavesNoResult_sys : ∃ p : Text, InHolds (loaded p) p ∧
    Params.fixture.minLenSys ≤ p.length ∧ ∃ f ∈ Params.fixture.layoutSys.fields,
      (charsOf p Params.fixture.layoutSys f).all isHex = false :=
  ⟨ascii "1003EG", loaded_holds _ (by decide), by decide⟩
theorem witness_FieldDecodeErrorLeavesNoResult_mfr : ∃ p : Text, InHolds (loaded p) p ∧
    Params.fixture.minLenMfr ≤ p.length ∧ ∃ f ∈ Params.fixture.layoutMfr.fields,
      (charsOf p Params.fixture.layoutMfr f).all isHex = false :=
  ⟨m1.take 77 ++ [0x47], loaded_holds _ (by decide), by decide⟩
theorem witness_FieldDecodeErrorLeavesNoResult_cap : ∃ p : Text, InHolds (loaded p) p ∧
    Params.fixture.minLenCap ≤ p.length ∧ ∃ f ∈ Params.fixture.layoutCap.fields,
      (charsOf p Params.fixture.layoutCap f).all isHex = false :=
  ⟨cap1.take 30 ++ ascii "zz", loaded_holds _ (by decide), by decide⟩
theorem witness_FieldDecodeErrorLeavesNoResult_rt : ∃ p : Text, InHolds (loadedRt p 0) p ∧
    (loadedRt p 0).operands.cellsKnown = true ∧ (loadedRt p 0).operands.cells.toNat ≤ 16 ∧
      (loadedRt p 0).cfg.params.layoutRt.rep = some ⟨58, 4, 1000, 16⟩ ∧
      Params.fixture.minLenRt ≤ p.length ∧ 0 + 58 + 0 * 4 ≤ p.length ∧
      ∃ f ∈ Params.fixture.layoutRt.fields,
        (charsOf p Params.fixture.layoutRt f).all isHex = false :=
  ⟨rt2.take 57 ++ [0x58], loadedRt_holds _ _ (by decide), by decide⟩
theorem witness_FieldDecodeErrorLeavesNoResult_cell : ∃ p : Text, InHolds (loadedRt p 4) p ∧
    (loadedRt p 4).operands.cellsKnown = true ∧ (loadedRt p 4).operands.cells.toNat ≤ 16 ∧
      (loadedRt p 4).cfg.params.layoutRt.rep = some ⟨58, 4, 1000, 16⟩ ∧
      Params.fixture.minLenRt ≤ p.length ∧ 0 + 58 + 4 * 4 ≤ p.length ∧ 3 < 4 ∧
      (sub p (0 + 58 + 3 * 4) 4).all isHex = false :=
  ⟨rt2.take 73 ++ [0x58], loadedRt_holds _ _ (by decide), by decide⟩
theorem witness_HexDigitsRoundTrip : (0x30 : Byte).toNat = 0x30 ∧ (0x39 : Byte).toNat = 0x39 ∧
    (0x41 : Byte).toNat = 0x41 ∧ (0x46 : Byte).toNat = 0x46 ∧ (0x61 : Byte).toNat = 0x61 ∧
    (0x66 : Byte).toNat = 0x66 ∧ isHex 0x2F = false ∧ isHex 0x3A = false ∧ isHex 0x40 = false ∧
    isHex 0x47 = false ∧ isHex 0x60 = false ∧ isHex 0x67 = false ∧ ascii "fFa" ≠ [] ∧
    0xFFFF < 16 ^ 4 ∧ 15 < 16 ^ 1 ∧ parseHex (ascii "fFaA") = some 0xFFAA ∧
    (ascii "fFaA")[3]? = some 0x41 := by decide
theorem witness_ConversionLaws : convertU 10 (ascii "FFFFFFFF") = some ⟨4294967295, 10⟩ ∧
    (ascii "8000").length = 4 ∧ convertS16 10 (ascii "8000") = some ⟨-32768, 10⟩ ∧
    convertText (ascii "4120") = some (ascii "A") ∧ (ascii "01").length % 2 = 0 ∧
    2 ≤ (ascii "01").length ∧ convertVer [0x2E] (ascii "01") = some (ascii "01") := by decide
/-- F14: two spaces, `ABC`, two spaces and NULs. F15 has its NULs between the letters. -/
theorem witness_TextFieldContents : (ascii "20204142432020000000").length % 2 = 0 ∧
    textBytes (ascii "20204142432020000000") =
      some [0x20, 0x20, 0x41, 0x42, 0x43, 0x20, 0x20, 0, 0, 0] ∧
    convertText (ascii "20204142432020000000") = some (ascii "ABC") ∧ (ascii "41G0").length % 2 = 0 ∧
    convertText (ascii "41G0") = none ∧ convertText (ascii "0920410D0A0B0C00") = some (ascii "A") := by
  decide
theorem witness_VersionFieldContents : (ascii "010203").length = 2 * 3 ∧
    convertVer [0x2E] (ascii "010203") = some (ascii "01.02.03") ∧
    joinWith [0x2D, 0x2D] (pairsOf (ascii "1a2B")) = ascii "1a--2B" ∧ (ascii "01").length = 2 * 1 ∧
    (ascii "01G3").length = 2 * 2 ∧ isHex 0x47 = false := by decide
theorem witness_DecodeSysDeliversFields : InHolds (loaded (ascii "1003E8")) (ascii "1003E8") ∧
    Decodable (ascii "1003E8") Params.fixture.layoutSys Params.fixture.minLenSys :=
  ⟨loaded_holds _ (by decide), by decide⟩
theorem witness_DecodeCapDeliversFields : InHolds (loaded cap1) cap1 ∧
    Decodable cap1 Params.fixture.layoutCap Params.fixture.minLenCap :=
  ⟨loaded_holds _ (by decide), by decide⟩
theorem witness_DecodeMfrWritesCacheOnce : InHolds (loaded m1) m1 ∧ (loaded m1).mid = none ∧
    Decodable m1 Params.fixture.layoutMfr Params.fixture.minLenMfr :=
  ⟨loaded_holds _ (by decide), rfl, by decide⟩
theorem witness_DecodeMfrWritesCacheOnce_cached :
    InHolds { loaded m2 with mid := some ⟨[], [], [], []⟩ } m2 ∧
      Decodable m2 Params.fixture.layoutMfr Params.fixture.minLenMfr :=
  ⟨loaded_holds _ (by decide), by decide⟩
theorem witness_DecodeRtDeliversTelemetry : InHolds (loadedRt rt2 4) rt2 ∧
    (loadedRt rt2 4).operands.cellsKnown = true ∧ (loadedRt rt2 4).operands.cells.toNat ≤ 16 ∧
    (loadedRt rt2 4).cfg.params.layoutRt.rep = some ⟨58, 4, 1000, 16⟩ ∧
    Decodable rt2 Params.fixture.layoutRt Params.fixture.minLenRt ∧ 0 + 58 + 4 * 4 ≤ rt2.length ∧
    ∀ i, i < 4 → (sub rt2 (0 + 58 + i * 4) 4).all isHex = true :=
  ⟨loadedRt_holds _ _ (by decide), by decide⟩
theorem witness_DecodeRtDeliversTelemetry_noCells : InHolds (loadedRt (rt2.take 58) 0) (rt2.take 58) ∧
    (loadedRt (rt2.take 58) 0).operands.cellsKnown = true ∧
    (loadedRt (rt2.take 58) 0).operands.cells.toNat = 0 ∧
    (loadedRt (rt2.take 58) 0).cfg.params.layoutRt.rep = some ⟨58, 4, 1000, 16⟩ ∧
    Decodable (rt2.take 58) Params.fixture.layoutRt Params.fixture.minLenRt ∧
    0 + 58 + 0 * 4 ≤ (rt2.take 58).length :=
  ⟨loadedRt_holds _ _ (by decide), by decide⟩
set_option maxRecDepth 4000 in
/-- RT1 with 16 cells, the bound of the cell count. -/
theorem witness_DecodeRtDeliversTelemetry_allCells : InHolds (loadedRt rt1 16) rt1 ∧
    (loadedRt rt1 16).operands.cellsKnown = true ∧ (loadedRt rt1 16).operands.cells.toNat = 16 ∧
    (loadedRt rt1 16).cfg.params.layoutRt.rep = some ⟨58, 4, 1000, 16⟩ ∧
    Decodable rt1 Params.fixture.layoutRt Params.fixture.minLenRt ∧ 0 + 58 + 16 * 4 ≤ rt1.length ∧
    ∀ i, i < 16 → (sub rt1 (0 + 58 + i * 4) 4).all isHex = true :=
  ⟨loadedRt_holds _ _ (by decide), by decide⟩
theorem witness_NamedQuantitiesHaveTheirDivisors :
    see .decodeRt (loadedRt rt2 4) (fun t => (t.results.readT .soc, t.results.readT .temp5,
      t.results.readCell 3)) = some (some ⟨1200, 100⟩, some ⟨0, 10⟩, some ⟨3273, 1000⟩) ∧
    see .decodeCap (loaded cap1) (fun t => (t.results.readT .capacity, t.results.readT .chgEnergy)) =
      some (some ⟨10000, 100⟩, some ⟨12345, 10⟩) := by decide
theorem witness_DecodeRtCellCountContract : (loaded []).operands.inLen.toNat ≤ 4113 ∧
    (loaded []).operands.cellsKnown = false ∧ (loadedRt [] 17).operands.cellsKnown = true ∧
    16 < (loadedRt [] 17).operands.cells.toNat := by decide

/-- V69 is the mapper stage of V52. -/
theorem witness_DecodeRtAgreesWithAlarmMap : ∃ s t u : State, exec .decodeRt s = .next t ∧
    t.result = 0 ∧ u.cfg = s.cfg ∧ u.operands.chgMax = s.operands.chgMax ∧
    u.operands.dsgMax = s.operands.dsgMax ∧
    t.results.readT .vstat = some ⟨(u.operands.vstat.toNat : Int), 1⟩ ∧
    t.results.readT .cstat = some ⟨(u.operands.cstat.toNat : Int), 1⟩ ∧
    t.results.readT .tstat = some ⟨(u.operands.tstat.toNat : Int), 1⟩ ∧
    t.results.readT .wstat = some ⟨(u.operands.wstat.toNat : Int), 1⟩ ∧
    t.results.readT .fetst = some ⟨(u.operands.fetst.toNat : Int), 1⟩ :=
  ⟨loadedRt rt2 4, _, alarms 0x0021 0x0008 0x0200 0x000A 0x01, rfl, by decide⟩

theorem witness_AlarmMapProperties_normal : ∃ t, exec .alarmMap (alarms 0 0 0 0 0xFF) = .next t ∧
    (alarms 0 0 0 0 0xFF).operands.vstat = 0 ∧ (alarms 0 0 0 0 0xFF).operands.cstat = 0 ∧
    (alarms 0 0 0 0 0xFF).operands.tstat = 0 ∧ (alarms 0 0 0 0 0xFF).operands.wstat = 0 :=
  ⟨_, rfl, by decide⟩
theorem witness_AlarmMapProperties_packVolt : ∃ t t', exec .alarmMap (alarms 0x0001 0 0 0 0) = .next t ∧
    (alarms 0x0001 0 0 0 0).operands.vstat.getLsbD 0 = true ∧
    t.results.readA .highPackVolt = some .protection ∧
    exec .alarmMap (alarms 0xFFFF 0 0 0 0xFF) = .next t' ∧
    (alarms 0xFFFF 0 0 0 0xFF).cfg = (alarms 0x0001 0 0 0 0).cfg ∧
    (0xFFFF : BitVec 16) &&& 0x0001 = 0x0001 ∧ t'.results.readA .highPackVolt = some .protection :=
  ⟨_, _, rfl, by decide, by decide, rfl, rfl, by decide, by decide⟩
theorem witness_AlarmMapProperties_same : ∃ t', exec .alarmMap (alarms 3 0 0 0 1) = .next t' ∧
    (alarms 3 0 0 0 1).operands.vstat = (alarms 3 0 0 0 2).operands.vstat ∧
    (alarms 3 0 0 0 1).operands.fetst = (alarms 9 0 0 0 1).operands.fetst ∧
    (alarms 3 0 0 0 1).operands.chgMax = (alarms 9 0 0 0 1).operands.chgMax ∧
    (alarms 3 0 0 0 1).operands.dsgMax = (alarms 9 0 0 0 1).operands.dsgMax :=
  ⟨_, rfl, by decide⟩

/-! The whole machine. -/

/-- PCHK of the string `A`. -/
def pchkA : State :=
  { loaded [0x41] with operands := { (loaded [0x41]).operands with op := 0x1 } }


theorem witness_EveryStepKeepsInputs : ∃ t u, exec .pchk pchkA = .next t ∧ step pchkA = .next u :=
  ⟨_, _, rfl, rfl⟩
theorem witness_OnlyDecodeMfrWritesCache : ∃ t,
    step { loaded m1 with operands := { (loaded m1).operands with op := 0x6 } } = .next t ∧
      t.mid ≠ none := ⟨_, rfl, by decide⟩
theorem witness_OnlyDecodeMfrWritesCache_kept : ∃ t, step { loaded m2 with
    operands := { (loaded m2).operands with op := 0x6 }, mid := some ⟨[], [], [], []⟩ } = .next t ∧
      t.mid = some ⟨[], [], [], []⟩ := ⟨_, rfl, by decide⟩
theorem witness_FailureWritesNothingElse : ∃ t, step (loaded []) = .next t ∧ t.result ≠ 0 :=
  ⟨_, rfl, by decide⟩
theorem witness_OperationsEndAsListed : ∃ t, exec .decodeRt (loaded []) = .next t ∧ t.result ≠ 0 :=
  ⟨_, rfl, by decide⟩
theorem witness_StepDependsOnInputsOnly : ∃ s s' t : State, s'.cfg = s.cfg ∧
    s'.operands = s.operands ∧ s'.mid = s.mid ∧
    (∀ a, a < s.operands.inLen.toNat → Memory.read s'.inMem a = Memory.read s.inMem a) ∧
    step s = .next t ∧ s'.results ≠ s.results :=
  ⟨pchkA, { pchkA with results := Results.ofOut [0x30], faultSeen := true }, _, rfl, rfl, rfl,
    fun _ _ => rfl, rfl, by decide⟩
theorem witness_EveryReadyOperationEnds : (loaded (ascii "A")).operands.inLen.toNat ≤ 4113 ∧
    State.ready .pchk (loaded (ascii "A")) :=
  ⟨by decide, fun _ => by decide⟩
theorem witness_EveryStepKeepsInvariant : ∃ t, pchkA.Inv ∧ step pchkA = .next t :=
  ⟨_, ⟨by decide, ⟨rfl, rfl⟩, rfl, .inl ⟨rfl, rfl, rfl, rfl, rfl⟩, by decide, fun _ => rfl,
    fun h => absurd h (by decide)⟩, rfl⟩
theorem witness_EveryScriptKeepsInvariant : ∃ t, (loaded []).Inv ∧
    runScript (.writeInLen 0 :: .reset :: roundTrip 1 0x4A 0 (ascii "01")) (loaded []) = .next t :=
  ⟨_, ⟨by decide, ⟨rfl, rfl⟩, rfl, .inl ⟨rfl, rfl, rfl, rfl, rfl⟩, by decide, fun _ => rfl,
    fun h => absurd h (by decide)⟩, rfl⟩

end Sys2Proof.Tests
end

section
/-! PROOFS. Hexadecimal digits: the value of a digit, the digit order of `parseHex`, and rendering as the
inverse of parsing up to letter case (00_scope.md R11, R37; 43_field_parser.md R106 (d)). -/

namespace Sys2Proof.Machine

open Sys2Proof

theorem hexVal_decimal {c : Byte} (h : 0x30 ≤ c.toNat ∧ c.toNat ≤ 0x39) :
    hexVal c = some (c.toNat - 0x30) := by
  rw [hexVal, if_pos h]

theorem hexVal_upper {c : Byte} (h : 0x41 ≤ c.toNat ∧ c.toNat ≤ 0x46) :
    hexVal c = some (c.toNat - 0x41 + 10) := by
  rw [hexVal, if_neg (by omega), if_pos h]

theorem hexVal_lower {c : Byte} (h : 0x61 ≤ c.toNat ∧ c.toNat ≤ 0x66) :
    hexVal c = some (c.toNat - 0x61 + 10) := by
  rw [hexVal, if_neg (by omega), if_neg (by omega), if_pos h]

/-- R11: the 22 hexadecimal digits, and no other byte. -/
theorem isHex_iff (c : Byte) :
    isHex c = true ↔ (0x30 ≤ c.toNat ∧ c.toNat ≤ 0x39) ∨ (0x41 ≤ c.toNat ∧ c.toNat ≤ 0x46) ∨
      (0x61 ≤ c.toNat ∧ c.toNat ≤ 0x66) := by
  constructor
  · intro h
    unfold isHex hexVal at h
    split at h
    · next hd => exact .inl hd
    · split at h
      · next hu => exact .inr (.inl hu)
      · split at h
        · next hl => exact .inr (.inr hl)
        · cases h
  · rintro (hd | hu | hl)
    · rw [isHex, hexVal_decimal hd]; rfl
    · rw [isHex, hexVal_upper hu]; rfl
    · rw [isHex, hexVal_lower hl]; rfl

theorem isUpperHex_iff (c : Byte) :
    isUpperHex c = true ↔
      (0x30 ≤ c.toNat ∧ c.toNat ≤ 0x39) ∨ (0x41 ≤ c.toNat ∧ c.toNat ≤ 0x46) := by
  simp [isUpperHex]

theorem parseHexFrom_singleton (acc : Nat) (c : Byte) :
    parseHexFrom acc [c] = (hexVal c).map (fun d => 16 * acc + d) := by
  rw [parseHexFrom]
  cases hexVal c with
  | none => rfl
  | some d => simp [parseHexFrom, Nat.mul_comm]

theorem parseHex_singleton (c : Byte) : parseHex [c] = hexVal c := by
  simp [parseHex, parseHexFrom_singleton]

/-- R11: the last character is the least significant digit. -/
theorem parseHex_snoc (s : Text) (c : Byte) :
    parseHex (s ++ [c]) = (parseHex s).bind (fun v => (hexVal c).map (fun d => 16 * v + d)) := by
  simp only [parseHex, parseHexFrom_append, parseHexFrom_singleton]

/-- R37: rendering a parsed value at the string's own length gives its digits back, value by value; only
the case of a letter can differ. -/
theorem map_hexVal_hexStr {s : Text} {v : Nat} (h : parseHex s = some v) :
    (hexStr s.length v).map hexVal = s.map hexVal := by
  induction s using List.reverseRecOn generalizing v with
  | nil => rfl
  | append_singleton s c ih =>
    rw [parseHex_snoc] at h
    simp only [Option.bind_eq_some_iff, Option.map_eq_some_iff] at h
    obtain ⟨u, hu, d, hd, rfl⟩ := h
    have hlt : d < 16 := hexVal_lt hd
    have hdiv : (16 * u + d) / 16 = u := by omega
    have hmod : (16 * u + d) % 16 = d := by omega
    simp [hexStr, hdiv, hmod, ih hu, hexVal_hexDig hlt, hd]

/-- The digit that a rendered value has at the place of a digit of the parsed string. -/
theorem hexStr_getElem?_of_parseHex {s : Text} {v : Nat} (h : parseHex s = some v) {i : Nat} {c : Byte}
    (hc : s[i]? = some c) :
    ∃ d, (hexStr s.length v)[i]? = some d ∧ hexVal d = hexVal c ∧ isUpperHex d = true := by
  have hval : ((hexStr s.length v).map hexVal)[i]? = (s.map hexVal)[i]? := by rw [map_hexVal_hexStr h]
  rw [List.getElem?_map, List.getElem?_map, hc, Option.map_some, Option.map_eq_some_iff] at hval
  obtain ⟨d, hd, hdc⟩ := hval
  exact ⟨d, hd, hdc, List.all_eq_true.1 (hexStr_isUpperHex _ _) d (List.mem_of_getElem? hd)⟩

end Sys2Proof.Machine

namespace Sys2Proof.Claims

open Sys2Proof Sys2Proof.Machine

/-- Settles O24, from the equations of `hexVal`, `parseHex_snoc` and `map_hexVal_hexStr`. -/
theorem hexDigitsRoundTrip : Obligations.HexDigitsRoundTrip := by
  refine ⟨fun c => ⟨fun h₁ h₂ => hexVal_decimal ⟨h₁, h₂⟩, fun h₁ h₂ => hexVal_upper ⟨h₁, h₂⟩,
    fun h₁ h₂ => hexVal_lower ⟨h₁, h₂⟩, isHex_iff c, (hexVal_eq_none_iff c).2, parseHex_singleton c⟩,
    fun s c _ => parseHex_snoc s c, fun n v _ hv => parseHex_hexStr hv,
    fun s v _ hs => ⟨parseHex_lt hs, hexStr_length _ _, fun i c hc => ?_⟩⟩
  obtain ⟨d, hd, hval, hup⟩ := hexStr_getElem?_of_parseHex hs hc
  exact ⟨d, hd, hval, (isUpperHex_iff d).1 hup⟩

end Sys2Proof.Claims
end

section
/-! PROOFS. The divisors of 00_scope.md R6 on everything an operation delivers. They enter where a field is
converted (its entry takes the descriptor's divisor), and a legal layout binds the descriptor's divisor to
its name (assumption 15). -/

namespace Sys2Proof.Machine

open Sys2Proof

/-- Each number in `T` has the divisor that R6 gives its name, if it gives one. -/
def NamedDivisors (t : List (FieldName × Scaled)) : Prop :=
  ∀ name v d, (name, v) ∈ t → name.divisor = some d → v.div = d

/-- The divisors of R6 on the two result files that hold numbers. -/
def Results.HasDivisors (r : Results) : Prop :=
  NamedDivisors r.tFile ∧ ∀ v ∈ r.cellv, v.div = cellVoltDiv

theorem namedDivisors_nil : NamedDivisors [] := fun _ _ _ hv _ => absurd hv List.not_mem_nil

/-- Results without numbers, as every operation but three decoders and every failed step leaves them. -/
theorem Results.hasDivisors_of_noNumbers {r : Results} (ht : r.tFile = []) (hc : r.cellv = []) :
    r.HasDivisors := by
  refine ⟨?_, ?_⟩
  · rw [ht]; exact namedDivisors_nil
  · rw [hc]; exact fun v hv => absurd hv List.not_mem_nil

theorem Results.HasDivisors.readT {r : Results} (h : r.HasDivisors) {name : FieldName} {v : Scaled}
    {d : Nat} (hv : r.readT name = some v) (hd : name.divisor = some d) : v.div = d := by
  obtain ⟨l₁, l₂, ht, -⟩ := List.lookup_eq_some_iff.1 hv
  exact h.1 name v d (by rw [ht]; simp) hd

theorem Results.HasDivisors.readCell {r : Results} (h : r.HasDivisors) {k : Nat} {v : Scaled}
    (hv : r.readCell k = some v) : v.div = cellVoltDiv :=
  h.2 v (List.mem_of_getElem? hv)

/-- A step that fails delivers no number (R137). -/
theorem State.stop_hasDivisors (s : State) (e : Stop) : (s.stop e).results.HasDivisors :=
  Results.hasDivisors_of_noNumbers rfl rfl

/-! ## Where a divisor comes from -/

theorem forall₂_exists_left {α β : Type} {R : α → β → Prop} {l : List α} {l' : List β}
    (h : List.Forall₂ R l l') {b : β} (hb : b ∈ l') : ∃ a ∈ l, R a b := by
  induction h with
  | nil => cases hb
  | cons hab _ ih =>
    rcases List.mem_cons.1 hb with rfl | hb
    · exact ⟨_, List.mem_cons_self, hab⟩
    · obtain ⟨a, ha, hr⟩ := ih hb
      exact ⟨a, List.mem_cons_of_mem _ ha, hr⟩

theorem convertU_div {d : Nat} {s : Text} {n : Scaled} (h : convertU d s = some n) : n.div = d := by
  unfold convertU at h
  split at h
  · cases h
  · cases h; rfl

theorem convertS16_div {d : Nat} {s : Text} {n : Scaled} (h : convertS16 d s = some n) : n.div = d := by
  unfold convertS16 at h
  split at h
  · cases h
  · cases h; rfl

/-- R94, R95: only the two kinds of number convert to one, and it takes the field's divisor. -/
theorem convert_num {sep : Text} {f : FieldDesc} {s : Text} {n : Scaled}
    (h : convert sep f s = some (.num n)) : (f.kind = .u ∨ f.kind = .s16) ∧ n.div = f.div := by
  unfold convert at h
  cases hk : f.kind with
  | u =>
    simp only [hk, Option.map_eq_some_iff, Value.num.injEq] at h
    obtain ⟨_, hn, rfl⟩ := h
    exact ⟨.inl rfl, convertU_div hn⟩
  | s16 =>
    simp only [hk, Option.map_eq_some_iff, Value.num.injEq] at h
    obtain ⟨_, hn, rfl⟩ := h
    exact ⟨.inr rfl, convertS16_div hn⟩
  | text => simp [hk] at h
  | ver => simp [hk] at h

theorem mem_numEntries {vs : List (FieldName × Value)} {name : FieldName} {n : Scaled} :
    (name, n) ∈ numEntries vs ↔ (name, Value.num n) ∈ vs := by
  induction vs with
  | nil => simp [numEntries]
  | cons nv vs ih =>
    obtain ⟨name', v⟩ := nv
    cases v with
    | num m => simp [numEntries, ih]
    | text t => simp [numEntries, ih]

/-- A well-formed layout decodes to numbers with the divisors of their names. -/
theorem decodeLayout_namedDivisors {sep p : Text} {y : Layout} {m k : Nat} {d : Decoded}
    (hy : y.wf m = true) (h : decodeLayout sep p y m k = .ok d) :
    NamedDivisors (numEntries d.values) := by
  intro name v dv hv hdv
  obtain ⟨-, hfields, -⟩ := decodeLayout_ok h
  obtain ⟨f, hf, rfl, hconv⟩ :=
    forall₂_exists_left (convertFields_forall₂ hfields) (mem_numEntries.1 hv)
  obtain ⟨hkind, hdiv⟩ := convert_num hconv
  exact hdiv.trans (Layout.divisor_of_wf hy hf hkind hdv)

/-- A decoder without cells (SYS, CAP) delivers the divisors of R6. -/
theorem decoded_results_hasDivisors {sep p : Text} {y : Layout} {m k : Nat} {d : Decoded}
    (hy : y.wf m = true) (h : decodeLayout sep p y m k = .ok d) : d.results.HasDivisors :=
  ⟨decodeLayout_namedDivisors hy h, fun _ hv => absurd hv List.not_mem_nil⟩

/-- R102: every element of the repeat group takes the group's divisor. -/
theorem convertCells_div {p : Text} {y : Layout} {k : Nat} {cells : List Scaled} {g : RepGroup}
    (hg : y.rep = some g) (h : convertCells p y k = some cells) : ∀ v ∈ cells, v.div = g.div := by
  intro v hv
  simp only [convertCells, hg, mapM_some_iff] at h
  obtain ⟨i, -, hi⟩ := forall₂_exists_left h hv
  exact convertU_div hi

/-- R115: the realtime layout has a repeat group, with the divisor of a cell voltage. -/
theorem Config.rt_rep (c : Config) : ∃ g, c.params.layoutRt.rep = some g ∧ g.div = cellVoltDiv := by
  have h := (Config.rt_wf c).2
  simp only [Layout.rtOk, Bool.and_eq_true] at h
  cases hg : c.params.layoutRt.rep with
  | none => simp [hg] at h
  | some g =>
    simp only [hg, decide_eq_true_eq] at h
    exact ⟨g, rfl, by tauto⟩

theorem decodeRt_cells_div {c : Config} {p : Text} {k : Nat} {d : Decoded}
    (h : decodeRtLayout c p k = .ok d) : ∀ v ∈ d.cells, v.div = cellVoltDiv := by
  obtain ⟨g, hg, hdiv⟩ := Config.rt_rep c
  obtain ⟨-, -, hcells⟩ := decodeLayout_ok h
  exact fun v hv => (convertCells_div hg hcells v hv).trans hdiv

/-- Every operation delivers its numbers with the divisors of R6. -/
theorem exec_hasDivisors {i : Instr} {s t : State} (h : exec i s = .next t) :
    t.results.HasDivisors := by
  cases i with
  | pchk =>
    rcases execPchk_next h with rfl | ⟨_, -, rfl⟩
    · exact s.stop_hasDivisors _
    · exact Results.hasDivisors_of_noNumbers rfl rfl
  | lchk => cases h; exact Results.hasDivisors_of_noNumbers rfl rfl
  | encode =>
    rcases execEncode_next h with rfl | ⟨_, _, -, -, rfl⟩ | ⟨_, -, -, rfl⟩
    · exact s.stop_hasDivisors _
    · exact s.stop_hasDivisors _
    · exact Results.hasDivisors_of_noNumbers rfl rfl
  | validate =>
    rcases execValidate_next h with rfl | ⟨_, _, -, -, rfl⟩ | ⟨_, _, -, -, rfl⟩
    · exact s.stop_hasDivisors _
    · exact s.stop_hasDivisors _
    · exact Results.hasDivisors_of_noNumbers rfl rfl
  | decodeSys =>
    rcases execDecodeSys_next h with rfl | ⟨_, _, -, -, rfl⟩ | ⟨_, _, -, hd, rfl⟩
    · exact s.stop_hasDivisors _
    · exact s.stop_hasDivisors _
    · exact decoded_results_hasDivisors (Config.sys_wf s.cfg).1 hd
  | decodeMfr =>
    rcases execDecodeMfr_next h with rfl | ⟨_, _, -, -, rfl⟩ | ⟨_, _, _, -, -, -, rfl⟩
    · exact s.stop_hasDivisors _
    · exact s.stop_hasDivisors _
    · exact Results.hasDivisors_of_noNumbers rfl rfl
  | decodeCap =>
    rcases execDecodeCap_next h with rfl | ⟨_, _, -, -, rfl⟩ | ⟨_, _, -, hd, rfl⟩
    · exact s.stop_hasDivisors _
    · exact s.stop_hasDivisors _
    · exact decoded_results_hasDivisors (Config.cap_wf s.cfg).1 hd
  | decodeRt =>
    rcases execDecodeRt_next h with
      rfl | ⟨_, -, rfl⟩ | ⟨-, _, _, -, -, rfl⟩ | ⟨-, _, _, _, -, hd, -, rfl⟩
    · exact s.stop_hasDivisors _
    · exact s.stop_hasDivisors _
    · exact s.stop_hasDivisors _
    · exact ⟨decodeLayout_namedDivisors (Config.rt_wf s.cfg).1 hd, decodeRt_cells_div hd⟩
  | alarmMap => cases h; exact Results.hasDivisors_of_noNumbers rfl rfl

end Sys2Proof.Machine

namespace Sys2Proof.Claims

open Sys2Proof Sys2Proof.Machine

/-- Settles O48: `exec_hasDivisors`, read at each name that R6 gives a divisor and at each cell. -/
theorem namedQuantitiesHaveTheirDivisors : Obligations.NamedQuantitiesHaveTheirDivisors := by
  intro i s t h
  have hdiv := exec_hasDivisors h
  refine ⟨?_, ?_, fun _ _ hv => hdiv.readCell hv⟩
  · rintro v (hv | hv | hv | hv) <;> exact hdiv.readT hv rfl
  · rintro v (hv | hv | hv | hv | hv | hv | hv) <;> exact hdiv.readT hv rfl

end Sys2Proof.Claims
end

section
/-! PROOFS. What every step keeps: the invariant of Safety.lean. The results of an operation are sound on
their own (`exec_results_sound`), so `State.Inv` splits into a step that stops, which leaves no result, and
a step that finishes with sound results. -/

namespace Sys2Proof.Machine

open Sys2Proof

/-! ## Sound results -/

/-- The three clauses of the invariant that speak of the results alone. -/
def Results.Sound (r : Results) : Prop := r.outSound ∧ r.cellsSound ∧ r.alarmsSound

theorem Results.outSound_of_absent {r : Results} (ho : r.out = []) (hl : r.outLen = none) :
    r.outSound := by
  simp [Results.outSound, ho, hl, Memory.nil_wf]

theorem Results.cellsSound_of_absent {r : Results} (hc : r.cellv = []) (hn : r.ncellv = none) :
    r.cellsSound := by
  simp [Results.cellsSound, hc, hn]

/-- R20: without a result there is nothing to keep sound. -/
theorem Results.empty_sound : Results.empty.Sound :=
  ⟨Results.outSound_of_absent rfl rfl, Results.cellsSound_of_absent rfl rfl,
    .inl ⟨rfl, rfl, rfl, rfl, rfl⟩⟩

/-- R32: an operation that delivers a string delivers exactly its characters. -/
theorem Results.outSound_ofOut {f : Text} (h : f.length ≤ outCap) : (Results.ofOut f).outSound := by
  have hcap : f.length ≤ 4113 := h
  have hlen : (BitVec.ofNat 13 f.length).toNat = f.length := by
    rw [BitVec.toNat_ofNat]
    exact Nat.mod_eq_of_lt (by omega)
  refine ⟨Memory.writeText_wf f (by omega) (Memory.nil_wf outCap), ?_⟩
  simp only [Results.ofOut_outLen, Results.ofOut_out, hlen, Memory.read_writeText_nil]
  exact ⟨h, fun a => by rw [Bool.eq_iff_iff, isSome_getElem?, decide_eq_true_iff]⟩

theorem Results.ofOut_sound {f : Text} (h : f.length ≤ outCap) : (Results.ofOut f).Sound :=
  ⟨Results.outSound_ofOut h, Results.cellsSound_of_absent rfl rfl, .inl ⟨rfl, rfl, rfl, rfl, rfl⟩⟩

/-! ## What ENCODE and VALIDATE deliver fits in `OUT` -/

/-- R77 (b). -/
theorem infoProblem_none_length {info : Text} (h : infoProblem info = none) :
    info.length ≤ 4094 := by
  unfold infoProblem at h
  split at h
  · cases h
  · split at h
    · cases h
    · next hlong => exact Nat.le_of_not_lt hlong

theorem encodeFrame_length_le {a c1 c2 : BitVec 8} {info : Text} (h : infoProblem info = none) :
    (encodeFrame a c1 c2 info).length ≤ outCap := by
  have hinfo := infoProblem_none_length h
  rw [encodeFrame_length, outCap]
  omega

/-- R87: an accepted payload has the length that 12 bits of LEN count. -/
theorem validate_ok_length_le {raw p : Text} (h : validate raw = .ok p) : p.length ≤ outCap := by
  obtain ⟨-, -, -, ⟨l, -, -, hcount⟩, -, rfl⟩ := (validate_ok_iff raw p).1 h
  have hbits := (BitVec.ofNat 12 l).isLt
  rw [payloadOf, sub_length, outCap]
  omega

/-! ## The cells of DECODE_RT -/

/-- R117: a step that passes the contract delivers at most 16 cells. -/
theorem cellCountProblem_none {o : Operands} (h : cellCountProblem o = none) :
    o.cells.toNat ≤ maxCells := by
  unfold cellCountProblem at h
  split at h
  · cases h
  · split at h
    · cases h
    · omega

/-- R114: one number for each of the cells that the host asked for. -/
theorem decodeRt_cells_length {c : Config} {p : Text} {k : Nat} {d : Decoded}
    (h : decodeRtLayout c p k = .ok d) : d.cells.length = k := by
  obtain ⟨g, hg, -⟩ := Config.rt_rep c
  obtain ⟨-, -, hcells⟩ := decodeLayout_ok h
  simp only [convertCells, hg, mapM_some_iff] at hcells
  simpa using hcells.length_eq.symm

/-! ## The alarms of the mapper stage -/

theorem Category.mem_all (c : Category) : c ∈ Category.all := by
  cases c <;> decide

/-- R121: a legal table has 14 rows, one for each category. -/
theorem Config.alarmTable_complete (c : Config) :
    c.params.alarmTable.length = 14 ∧ ∀ cat, ∃ row ∈ c.params.alarmTable, row.cat = cat := by
  have h := Config.table_ok c
  simp only [tableOk, rowsComplete, Bool.and_eq_true, decide_eq_true_eq, List.all_eq_true,
    List.any_eq_true] at h
  obtain ⟨⟨⟨hlen, hall⟩, -⟩, -⟩ := h
  exact ⟨hlen, fun cat => hall cat (Category.mem_all cat)⟩

/-- R119: each category that the table has gets a level. -/
theorem alarmFile_lookup_isSome {table : List AlarmRow} {row : AlarmRow} (regs : StatusRegs)
    (h : row ∈ table) : ((alarmFile table regs).lookup row.cat).isSome = true := by
  rw [List.lookup_isSome_iff]
  exact ⟨_, List.mem_map_of_mem h, by simp⟩

/-- R125: a flag and its limit, as the mapper writes them. -/
theorem gateLimit_sound (engaged : Bool) (max : BitVec 32) :
    (some engaged = some true ∧ (some (gateLimit engaged max)).isSome = true) ∨
      (some engaged = some false ∧ some (gateLimit engaged max) = some 0) := by
  cases engaged with
  | true => exact .inl ⟨rfl, rfl⟩
  | false => exact .inr ⟨rfl, rfl⟩

/-- The mapper stage makes the alarms sound, whatever results it is written over. -/
theorem alarmMap_alarmsSound (cfg : Config) (regs : StatusRegs) (chgMax dsgMax : BitVec 32)
    (r : Results) : (alarmMap cfg regs chgMax dsgMax r).alarmsSound := by
  obtain ⟨hlen, hall⟩ := Config.alarmTable_complete cfg
  refine .inr ⟨fun c => ?_, ?_, gateLimit_sound _ _, gateLimit_sound _ _⟩
  · obtain ⟨row, hrow, rfl⟩ := hall c
    exact alarmFile_lookup_isSome regs hrow
  · rw [alarmMap_aFile, alarmFile, List.length_map, hlen]

theorem alarmMap_sound {cfg : Config} {regs : StatusRegs} {chgMax dsgMax : BitVec 32} {r : Results}
    (ho : r.outSound) (hc : r.cellsSound) : (alarmMap cfg regs chgMax dsgMax r).Sound :=
  ⟨ho, hc, alarmMap_alarmsSound cfg regs chgMax dsgMax r⟩

/-- R23: `NCELLV` is the number of decoded cells. -/
theorem Decoded.rtResults_cellsSound {d : Decoded} {cells : BitVec 5}
    (hlen : d.cells.length = cells.toNat) (hmax : cells.toNat ≤ maxCells) :
    (d.rtResults cells).cellsSound :=
  ⟨hlen, hmax⟩

/-! ## Every operation -/

/-- The results of a decoder without cells (SYS, CAP). -/
theorem Decoded.results_sound (d : Decoded) : d.results.Sound :=
  ⟨Results.outSound_of_absent rfl rfl, Results.cellsSound_of_absent rfl rfl,
    .inl ⟨rfl, rfl, rfl, rfl, rfl⟩⟩

/-- Every operation leaves sound results, from every state. -/
theorem exec_results_sound {i : Instr} {s t : State} (h : exec i s = .next t) : t.results.Sound := by
  cases i with
  | pchk =>
    rcases execPchk_next h with rfl | ⟨_, -, rfl⟩
    · exact Results.empty_sound
    · exact Results.empty_sound
  | lchk => cases h; exact Results.empty_sound
  | encode =>
    rcases execEncode_next h with rfl | ⟨_, _, -, -, rfl⟩ | ⟨_, -, hinfo, rfl⟩
    · exact Results.empty_sound
    · exact Results.empty_sound
    · exact Results.ofOut_sound (encodeFrame_length_le hinfo)
  | validate =>
    rcases execValidate_next h with rfl | ⟨_, _, -, -, rfl⟩ | ⟨_, _, -, hok, rfl⟩
    · exact Results.empty_sound
    · exact Results.empty_sound
    · exact Results.ofOut_sound (validate_ok_length_le hok)
  | decodeSys =>
    rcases execDecodeSys_next h with rfl | ⟨_, _, -, -, rfl⟩ | ⟨_, d, -, -, rfl⟩
    · exact Results.empty_sound
    · exact Results.empty_sound
    · exact d.results_sound
  | decodeMfr =>
    rcases execDecodeMfr_next h with rfl | ⟨_, _, -, -, rfl⟩ | ⟨_, _, _, -, -, -, rfl⟩
    · exact Results.empty_sound
    · exact Results.empty_sound
    · exact Results.empty_sound
  | decodeCap =>
    rcases execDecodeCap_next h with rfl | ⟨_, _, -, -, rfl⟩ | ⟨_, d, -, -, rfl⟩
    · exact Results.empty_sound
    · exact Results.empty_sound
    · exact d.results_sound
  | decodeRt =>
    rcases execDecodeRt_next h with
      rfl | ⟨_, -, rfl⟩ | ⟨-, _, _, -, -, rfl⟩ | ⟨hcount, _, d, _, -, hd, -, rfl⟩
    · exact Results.empty_sound
    · exact Results.empty_sound
    · exact Results.empty_sound
    · exact alarmMap_sound (Results.outSound_of_absent rfl rfl)
        (Decoded.rtResults_cellsSound (decodeRt_cells_length hd) (cellCountProblem_none hcount))
  | alarmMap =>
    cases h
    exact alarmMap_sound (Results.outSound_of_absent rfl rfl)
      (Results.cellsSound_of_absent rfl rfl)

/-! ## The invariant -/

/-- R130: the value of `RESULT` for every cause is one of the 13. -/
theorem Cause.code_mem_legalResults (c : Cause) : c.code ∈ legalResults := by
  cases c <;> decide

/-- R129, R130: class FAULT is read off the value of `RESULT`. -/
theorem Cause.resultClass_code_eq_two (c : Cause) : resultClass c.code = 2 ↔ c.isFault = true := by
  cases c <;> decide

/-- R137: a step that stops leaves no result, and class FAULT sets the sticky bit. -/
theorem State.Inv.stop {s : State} (h : s.Inv) (e : Stop) : (s.stop e).Inv := by
  obtain ⟨hmem, -⟩ := h
  obtain ⟨hout, hcells, halarms⟩ := Results.empty_sound
  refine ⟨hmem, hout, hcells, halarms, e.cause.code_mem_legalResults, fun _ => rfl, fun hclass => ?_⟩
  rw [State.stop_faultSeen, e.cause.resultClass_code_eq_two.1 hclass, Bool.or_true]

/-- A step that finishes with sound results. Neither `RESULT` nor the sticky bit of before matters, since
the class of OK is 0. -/
theorem State.Inv.finish {s : State} (h : s.Inv) {r : Results} (hr : r.Sound) : (s.finish r).Inv := by
  obtain ⟨hmem, -⟩ := h
  obtain ⟨hout, hcells, halarms⟩ := hr
  have hlegal : okCode ∈ legalResults := by decide
  have hok : resultClass okCode = 0 := by decide
  exact ⟨hmem, hout, hcells, halarms, hlegal, fun hne => absurd hok hne,
    fun heq => absurd (hok.symm.trans heq) (by decide)⟩

/-- No clause of the invariant speaks of `MID`. -/
theorem State.Inv.withMid {s : State} (h : s.Inv) (mid : Option Identity) :
    ({ s with mid := mid } : State).Inv := h

theorem exec_keeps_inv {i : Instr} {s t : State} (hs : s.Inv) (h : exec i s = .next t) : t.Inv := by
  have hsound := exec_results_sound h
  rcases exec_next h with ⟨e, rfl⟩ | ⟨r, rfl⟩ | ⟨-, fresh, rfl⟩
  · exact hs.stop e
  · exact hs.finish hsound
  · exact (hs.withMid _).finish hsound

theorem step_keeps_inv {s t : State} (hs : s.Inv) (h : step s = .next t) : t.Inv := by
  rcases step_next h with ⟨i, -, hi⟩ | rfl
  · exact exec_keeps_inv hs hi
  · exact hs.stop _

/-- R28: reset, where no space and no result holds a value. -/
theorem reset_inv : State.reset.Inv := by
  obtain ⟨hout, hcells, halarms⟩ := Results.empty_sound
  have hclass : resultClass 0 = 0 := by decide
  exact ⟨Memory.nil_wf inCap, hout, hcells, halarms, by decide, fun hne => absurd hclass hne,
    fun heq => absurd (hclass.symm.trans heq) (by decide)⟩

end Sys2Proof.Machine

namespace Sys2Proof.Claims

open Sys2Proof Sys2Proof.Machine

/-- Settles O40: every operation leaves sound results, so a step that stops and a step that finishes both
keep the invariant. -/
theorem everyStepKeepsInvariant : Obligations.EveryStepKeepsInvariant :=
  fun _ _ => step_keeps_inv

/-- Settles O41: an empty machine is sound, and `RESULT` 0 is the value of OK. -/
theorem resetHasInvariant : Obligations.ResetHasInvariant := reset_inv

end Sys2Proof.Claims
end

section
/-! PROOFS. The frame of a step: what no operation writes (10_state.md R16, 20_memory.md R46,
60_exceptions.md R137), and the one operation that writes the identity cache (R26, R111). -/

namespace Sys2Proof.Machine

open Sys2Proof Sys2Proof.Claims

/-! ## The inputs -/

theorem State.stop_keepsInputs (s : State) (e : Stop) : KeepsInputs s (s.stop e) :=
  ⟨rfl, rfl, fun _ => rfl⟩

theorem State.finish_keepsInputs (s : State) (r : Results) : KeepsInputs s (s.finish r) :=
  ⟨rfl, rfl, fun _ => rfl⟩

theorem State.withMid_keepsInputs (s : State) (mid : Option Identity) :
    KeepsInputs s { s with mid := mid } :=
  ⟨rfl, rfl, fun _ => rfl⟩

theorem keepsInputs_trans {s t u : State} (h : KeepsInputs s t) (h' : KeepsInputs t u) :
    KeepsInputs s u := by
  obtain ⟨hcfg, hops, hin⟩ := h
  obtain ⟨hcfg', hops', hin'⟩ := h'
  exact ⟨hcfg'.trans hcfg, hops'.trans hops, fun a => (hin' a).trans (hin a)⟩

theorem exec_keepsInputs {i : Instr} {s t : State} (h : exec i s = .next t) : KeepsInputs s t := by
  rcases exec_next h with ⟨e, rfl⟩ | ⟨r, rfl⟩ | ⟨-, fresh, rfl⟩
  · exact s.stop_keepsInputs e
  · exact s.finish_keepsInputs r
  · exact keepsInputs_trans (s.withMid_keepsInputs _) (State.finish_keepsInputs _ _)

theorem step_keepsInputs {s t : State} (h : step s = .next t) : KeepsInputs s t := by
  rcases step_next h with ⟨i, -, hi⟩ | rfl
  · exact exec_keepsInputs hi
  · exact s.stop_keepsInputs _

/-! ## The identity cache -/

/-- R63: an operation is read from its own code only. -/
theorem eq_encode_of_decode {op : BitVec 4} {i : Instr} (h : decode op = .ok i) : op = encode i := by
  cases i <;> revert op <;> decide

/-- R26, R111: a step leaves `MID`, or it ran DECODE_MFR, ended OK and wrote the cache by `cacheUpdate`. -/
theorem step_mid {s t : State} (h : step s = .next t) :
    t.mid = s.mid ∨
      s.operands.op = encode .decodeMfr ∧ t.result = okCode ∧
        ∃ fresh, t.mid = some (cacheUpdate s.mid fresh) := by
  rcases step_next h with ⟨i, hi, hexec⟩ | rfl
  · rcases exec_next hexec with ⟨e, rfl⟩ | ⟨r, rfl⟩ | ⟨rfl, fresh, rfl⟩
    · exact .inl rfl
    · exact .inl rfl
    · exact .inr ⟨eq_encode_of_decode hi, rfl, fresh, rfl⟩
  · exact .inl rfl

/-- R111: a cache that holds an identity is left as it is. -/
@[simp] theorem cacheUpdate_some (cached fresh : Identity) : cacheUpdate (some cached) fresh = cached := rfl

/-- R26, R148: once valid, `MID` keeps its identity. -/
theorem step_keeps_mid {s t : State} {id : Identity} (h : step s = .next t) (hid : s.mid = some id) :
    t.mid = some id := by
  rcases step_mid h with hmid | ⟨-, -, fresh, hmid⟩
  · rw [hmid, hid]
  · rw [hmid, hid, cacheUpdate_some]

end Sys2Proof.Machine

namespace Sys2Proof.Claims

open Sys2Proof Sys2Proof.Machine

/-- Settles O34: `stop`, `finish` and the write of `MID` are all a step does, and none touches an input. -/
theorem everyStepKeepsInputs : Obligations.EveryStepKeepsInputs :=
  ⟨fun _ _ _ => exec_keepsInputs, fun _ _ => step_keepsInputs⟩

/-- Settles O35, by `step_mid`; a step that changes `MID` found it empty, since a valid one is kept. -/
theorem onlyDecodeMfrWritesCache : Obligations.OnlyDecodeMfrWritesCache := by
  refine fun s t h => ⟨fun id hid => step_keeps_mid h hid, fun hne => ?_⟩
  rcases step_mid h with hmid | ⟨hop, hok, -⟩
  · exact absurd hmid hne
  · refine ⟨hop, hok, ?_⟩
    cases hid : s.mid with
    | none => rfl
    | some id => exact absurd ((step_keeps_mid h hid).trans hid.symm) hne

end Sys2Proof.Claims
end

section
/-! PROOFS. Two steps with equal inputs end alike (10_state.md R27). What a step computes is a function of
the configuration, the operand registers, the string in `IN` and `MID`: each operation is run on two states
that agree on these, and the two ends are compared as one equation. -/

namespace Sys2Proof.Machine

open Sys2Proof

/-! ## The inputs and the end of a step -/

/-- The two states agree on everything that an operation may read. -/
structure SameInputs (s s' : State) : Prop where
  cfg : s'.cfg = s.cfg
  operands : s'.operands = s.operands
  mid : s'.mid = s.mid
  inText : s'.inText = s.inText

/-- The string in `IN` is made of the characters below `IN_LEN`. -/
theorem State.inText_congr {s s' : State} (hops : s'.operands = s.operands)
    (hin : ∀ a, a < s.operands.inLen.toNat → Memory.read s'.inMem a = Memory.read s.inMem a) :
    s'.inText = s.inText := by
  refine Option.ext fun p => ?_
  rw [State.inText_eq_some, State.inText_eq_some, hops]
  exact and_congr_right fun _ => forall₂_congr fun a ha => by rw [hin a ha]

/-- What R27 says two steps have in common. -/
structure StepEnd where
  results : Results
  result : BitVec 8
  rinfo : BitVec 8
  mid : Option Identity

/-- The end of a step, read in its next state. -/
def State.stepEnd (s : State) : StepEnd := ⟨s.results, s.result, s.rinfo, s.mid⟩

/-- An outcome, of whose next state only the end in the sense of R27 is seen. -/
def outcomeEnd : Host.Outcome State Fault Refusal → Host.Outcome StepEnd Fault Refusal
  | .next t => .next t.stepEnd
  | .fault r => .fault r
  | .refused r => .refused r

theorem next_of_outcomeEnd_eq {o : Host.Outcome State Fault Refusal} {t : State}
    (h : outcomeEnd o = outcomeEnd (.next t)) : ∃ t', o = .next t' ∧ t'.stepEnd = t.stepEnd := by
  cases o with
  | next t' => exact ⟨t', rfl, Host.Outcome.next.inj h⟩
  | fault r => cases h
  | refused r => cases h

/-! ## Equal inputs, equal ends -/

theorem SameInputs.stop_end {s s' : State} (h : SameInputs s s') (e : Stop) :
    outcomeEnd (.next (s'.stop e)) = outcomeEnd (.next (s.stop e)) := by
  simp only [outcomeEnd, State.stepEnd, State.stop_mid, h.mid]
  rfl

theorem SameInputs.finish_end {s s' : State} (h : SameInputs s s') (r : Results) :
    outcomeEnd (.next (s'.finish r)) = outcomeEnd (.next (s.finish r)) := by
  simp only [outcomeEnd, State.stepEnd, State.finish_mid, h.mid]
  rfl

/-- An operation that reads `IN` ends alike if what it does with the string does. -/
theorem SameInputs.onIn_end {s s' : State} (h : SameInputs s s') {c : Option Stop}
    {body body' : Text → Host.Outcome State Fault Refusal}
    (hbody : ∀ p, outcomeEnd (body' p) = outcomeEnd (body p)) :
    outcomeEnd (s'.onIn c body') = outcomeEnd (s.onIn c body) := by
  unfold State.onIn
  rw [h.operands, h.inText]
  split
  · exact h.stop_end _
  · cases c with
    | some e => exact h.stop_end e
    | none =>
      cases s.inText with
      | none => rfl
      | some p => exact hbody p

theorem exec_end {s s' : State} (h : SameInputs s s') (i : Instr) :
    outcomeEnd (exec i s') = outcomeEnd (exec i s) := by
  cases i with
  | pchk =>
    simp only [exec, execPchk]
    exact h.onIn_end fun text => h.finish_end _
  | lchk =>
    simp only [exec, execLchk, h.operands]
    exact h.finish_end _
  | encode =>
    simp only [exec, execEncode, h.operands]
    refine h.onIn_end fun info => ?_
    cases infoProblem info with
    | some reason => exact h.stop_end _
    | none => exact h.finish_end _
  | validate =>
    simp only [exec, execValidate]
    refine h.onIn_end fun raw => ?_
    cases validate raw with
    | error e => exact h.stop_end e
    | ok p => exact h.finish_end _
  | decodeSys =>
    simp only [exec, execDecodeSys, h.cfg]
    refine h.onIn_end fun p => ?_
    cases decodeSysLayout s.cfg p with
    | error c => exact h.stop_end _
    | ok d => exact h.finish_end _
  | decodeMfr =>
    simp only [exec, execDecodeMfr, h.cfg, h.mid]
    refine h.onIn_end fun p => ?_
    cases hd : decodeMfrLayout s.cfg p with
    | error c => exact h.stop_end _
    | ok d =>
      obtain ⟨fresh, hid⟩ := identityOf_isSome hd
      simp only [hid]
      rfl
  | decodeCap =>
    simp only [exec, execDecodeCap, h.cfg]
    refine h.onIn_end fun p => ?_
    cases decodeCapLayout s.cfg p with
    | error c => exact h.stop_end _
    | ok d => exact h.finish_end _
  | decodeRt =>
    simp only [exec, execDecodeRt, h.cfg, h.operands]
    refine h.onIn_end fun p => ?_
    cases hd : decodeRtLayout s.cfg p s.operands.cells.toNat with
    | error c => exact h.stop_end _
    | ok d =>
      obtain ⟨regs, hregs, -⟩ := decodedRegs_isSome hd
      simp only [hregs]
      exact h.finish_end _
  | alarmMap =>
    simp only [exec, execAlarmMap, State.statusRegs, h.cfg, h.operands]
    exact h.finish_end _

theorem step_end {s s' : State} (h : SameInputs s s') : outcomeEnd (step s') = outcomeEnd (step s) := by
  unfold step
  rw [State.fetchOp_eq, State.fetchOp_eq, h.operands]
  cases decode s.operands.op with
  | ok i => exact exec_end h i
  | error e =>
    obtain ⟨op⟩ := e
    exact h.stop_end _

end Sys2Proof.Machine

namespace Sys2Proof.Claims

open Sys2Proof Sys2Proof.Machine

/-- Settles O38: the two states agree on every input, so their steps end alike (`step_end`). -/
theorem stepDependsOnInputsOnly : Obligations.StepDependsOnInputsOnly := by
  intro s s' t hcfg hops hmid hin hstep
  have hsame : SameInputs s s' := ⟨hcfg, hops, hmid, State.inText_congr hops hin⟩
  obtain ⟨t', hstep', hend⟩ := next_of_outcomeEnd_eq ((step_end hsame).trans (congrArg outcomeEnd hstep))
  obtain ⟨hresults, hresult, hrinfo, hmid'⟩ := StepEnd.mk.inj hend
  exact ⟨t', hstep', hresults, hresult, hrinfo, hmid'⟩

end Sys2Proof.Claims
end

section
/-! PROOFS. The selection of an operation (R17, R63), and the states and results without values (R20,
R28). -/

namespace Sys2Proof.Claims

open Sys2Proof Sys2Proof.Machine

/-- Settles O1: `step` is the decoder's choice and nothing else. -/
theorem stepRunsDecodedInstruction : Obligations.StepRunsDecodedInstruction := by
  intro s i h
  rw [step, State.fetchOp_eq, h]

/-- Settles O43: reset leaves both spaces unlisted, and an unlisted address holds no value. -/
theorem resetHoldsNoValues : Obligations.ResetHoldsNoValues :=
  ⟨rfl, rfl, Memory.read_nil, Memory.read_nil⟩

/-- Settles O45: every register of the empty results is absent, and every file and `OUT` are empty lists. -/
theorem emptyResultsHoldNoValue : Obligations.EmptyResultsHoldNoValue :=
  ⟨rfl, rfl, rfl, rfl, rfl, rfl, rfl, rfl, rfl, fun _ => rfl, fun _ => rfl, fun _ => rfl, fun _ => rfl,
    Memory.read_nil⟩

end Sys2Proof.Claims
end

section
/-! PROOFS. An `IN_LEN` above the capacity (20_memory.md R34). Every operation that reads `IN` begins with
`State.onIn`, which tests the length first: before the operation's own contract and before the string
(60_exceptions.md R135). -/

namespace Sys2Proof.Machine

open Sys2Proof Sys2Proof.Claims

/-! ## The end of a stopped step -/

/-- R129, R132: the causes of class FAULT are those whose code has class 2. -/
theorem Cause.isFault_eq_resultClass (c : Cause) : c.isFault = decide (resultClass c.code = 2) := by
  rw [Bool.eq_iff_iff, decide_eq_true_iff, c.resultClass_code_eq_two]

/-- R137: what `stop` writes is all that a REJECT or a FAULT writes. -/
theorem State.stop_endsStopped (s : State) (e : Stop) : EndsStopped s (s.stop e) e.cause.code e.info := by
  have hsticky : (s.stop e).faultSeen = (s.faultSeen || decide (resultClass e.cause.code = 2)) := by
    rw [State.stop_faultSeen, e.cause.isFault_eq_resultClass]
  exact ⟨rfl, rfl, s.stop_keepsInputs e, rfl, rfl, Memory.read_nil, hsticky⟩

/-! ## The operations that read `IN` -/

/-- R34, R135: the length is tested before anything the operation itself does, DECODE_RT's cell count
included. -/
theorem exec_badInLen {i : Instr} {s : State} (hi : readsIn i = true)
    (h : inCap < s.operands.inLen.toNat) : exec i s = .next (s.stop ⟨.badInLen, 0⟩) := by
  cases i with
  | pchk => exact State.onIn_badInLen h none _
  | encode => exact State.onIn_badInLen h none _
  | validate => exact State.onIn_badInLen h none _
  | decodeSys => exact State.onIn_badInLen h none _
  | decodeMfr => exact State.onIn_badInLen h none _
  | decodeCap => exact State.onIn_badInLen h none _
  | decodeRt => exact State.onIn_badInLen h (cellCountProblem s.operands) _
  | lchk => cases hi
  | alarmMap => cases hi

end Sys2Proof.Machine

namespace Sys2Proof.Claims

open Sys2Proof Sys2Proof.Machine

/-- Settles O5: the seven operations are those `readsIn` names, and each stops with BadInLen
(`exec_badInLen`). -/
theorem inLenAboveCapacityFaults : Obligations.InLenAboveCapacityFaults := by
  intro i s hi hlen
  have hreads : readsIn i = true := by
    rcases hi with rfl | rfl | rfl | rfl | rfl | rfl | rfl <;> rfl
  exact ⟨_, exec_badInLen hreads hlen, s.stop_endsStopped ⟨.badInLen, 0⟩⟩

end Sys2Proof.Claims
end

section
/-! PROOFS. What a script of host actions keeps (10_state.md R15, 30_encoding.md R66, R147). An action
writes the inputs, starts a step or resets (`hostAct_next`); the invariant speaks of no operand, so of the
writes only those of `IN` can touch it. -/

namespace Sys2Proof.Machine

open Sys2Proof

/-- R66: a load that fits replaces the content of `IN` and writes `IN_LEN`. -/
theorem eq_of_loadIn_next {s t : State} {text : Text} (h : s.loadIn text = .next t) :
    text.length ≤ inCap ∧
      t = { s with
        inMem := Memory.writeText [] 0 text
        operands := { s.operands with inLen := BitVec.ofNat 13 text.length } } := by
  unfold State.loadIn at h
  split at h
  · next hfits => cases h; exact ⟨hfits, rfl⟩
  · cases h

/-- R66, R153: `IN=OUT` is a load of the string that `OUT` holds. -/
theorem loadIn_of_copyOut_next {s t : State} (h : s.copyOut = .next t) :
    ∃ text, s.results.outText = some text ∧ s.loadIn text = .next t := by
  unfold State.copyOut at h
  split at h
  · cases h
  · next text hout => exact ⟨text, hout, h⟩

/-- R15, R66: what an action of the host can do: write an operand register, shorten or load `IN`, start a
step, or reset. -/
theorem hostAct_next {a : HostAct} {s t : State} (h : hostAct a s = .next t) :
    (∃ o, t = { s with operands := o }) ∨
      (∃ n o, t = { s with inMem := Memory.keepBelow s.inMem n, operands := o }) ∨
      (∃ text, s.loadIn text = .next t) ∨ step s = .next t ∨ t = s.applyReset := by
  cases a with
  | writeOp | writeAddr | writeCid1 | writeCid2 | writeLen12 | writeCells | writeCellsKnown
  | writeVstat | writeCstat | writeTstat | writeWstat | writeFetst | writeChgMax | writeDsgMax =>
    cases h; exact .inl ⟨_, rfl⟩
  | writeInLen v => cases h; exact .inr (.inl ⟨v.toNat, _, rfl⟩)
  | loadIn text => exact .inr (.inr (.inl ⟨text, h⟩))
  | copyOut =>
    obtain ⟨text, -, hload⟩ := loadIn_of_copyOut_next h
    exact .inr (.inr (.inl ⟨text, hload⟩))
  | start => exact .inr (.inr (.inr (.inl h)))
  | reset => cases h; exact .inr (.inr (.inr (.inr rfl)))

/-- The invariant speaks of no operand register, and of `IN` only that its form is canonical (R32). -/
theorem State.Inv.withInputs {s : State} (h : s.Inv) {m : Memory} (hm : Memory.wf inCap m = true)
    (o : Operands) : ({ s with inMem := m, operands := o } : State).Inv := by
  obtain ⟨-, hrest⟩ := h
  exact ⟨hm, hrest⟩

theorem loadIn_keeps_inv {s t : State} {text : Text} (hs : s.Inv) (h : s.loadIn text = .next t) :
    t.Inv := by
  obtain ⟨hfits, rfl⟩ := eq_of_loadIn_next h
  exact hs.withInputs (Memory.writeText_wf text (by omega) (Memory.nil_wf inCap)) _

/-- No clause of the invariant speaks of the configuration, in which alone a reset by the host can differ
from `State.reset` (R149). -/
theorem State.applyReset_inv (s : State) : s.applyReset.Inv := reset_inv

theorem hostAct_keeps_inv {a : HostAct} {s t : State} (hs : s.Inv) (h : hostAct a s = .next t) :
    t.Inv := by
  have ⟨hin, _⟩ := hs
  rcases hostAct_next h with ⟨o, rfl⟩ | ⟨n, o, rfl⟩ | ⟨text, hload⟩ | hstep | rfl
  · exact hs.withInputs hin o
  · exact hs.withInputs (Memory.keepBelow_wf n hin) o
  · exact loadIn_keeps_inv hs hload
  · exact step_keeps_inv hs hstep
  · exact s.applyReset_inv

/-- A script that runs to a next state ran its first action to one, and the rest from there. -/
theorem runScript_cons_next {a : HostAct} {rest : List HostAct} {s t : State}
    (h : runScript (a :: rest) s = .next t) :
    ∃ u, hostAct a s = .next u ∧ runScript rest u = .next t := by
  unfold runScript at h
  split at h
  · next u hact => exact ⟨u, hact, h⟩
  · cases h
  · cases h

theorem runScript_keeps_inv {acts : List HostAct} {s t : State} (hs : s.Inv)
    (h : runScript acts s = .next t) : t.Inv := by
  induction acts generalizing s with
  | nil => cases h; exact hs
  | cons a rest ih =>
    obtain ⟨u, hact, hrest⟩ := runScript_cons_next h
    exact ih (hostAct_keeps_inv hs hact) hrest

end Sys2Proof.Machine

namespace Sys2Proof.Claims

open Sys2Proof Sys2Proof.Machine

/-- Settles O42, by induction on the script; each of its actions keeps the invariant
(`hostAct_keeps_inv`). -/
theorem everyScriptKeepsInvariant : Obligations.EveryScriptKeepsInvariant :=
  fun _ _ _ => runScript_keeps_inv

end Sys2Proof.Claims
end

section
/-! PROOFS. The codes of the operations (30_encoding.md R63) and the reserved values of `OP` (R16, R64). -/

namespace Sys2Proof.Machine

open Sys2Proof Sys2Proof.Laws

/-- R63: every operation is read back from its code. -/
theorem decode_encode (i : Instr) : decode (encode i) = .ok i := by
  have hround : OpRoundTrip.Statement i := by
    cases i with
    | pchk => exact OpRoundTrip.pchk
    | lchk => exact OpRoundTrip.lchk
    | encode => exact OpRoundTrip.encode
    | validate => exact OpRoundTrip.validate
    | decodeSys => exact OpRoundTrip.decodeSys
    | decodeMfr => exact OpRoundTrip.decodeMfr
    | decodeCap => exact OpRoundTrip.decodeCap
    | decodeRt => exact OpRoundTrip.decodeRt
    | alarmMap => exact OpRoundTrip.alarmMap
  obtain ⟨-, hdecode, -⟩ := hround
  exact hdecode

/-- R16: the reserved values, as a range. -/
theorem legalOp_eq_false_iff (op : BitVec 4) : legalOp op = false ↔ op.toNat = 0 ∨ 10 ≤ op.toNat := by
  rw [legalOp, decide_eq_false_iff_not]
  omega

/-- R64: the decoder refuses the reserved values and no others; one look at each of the 16 values of
`OP`. -/
theorem legalOp_eq_false_iff_decode (op : BitVec 4) :
    legalOp op = false ↔ decode op = .error (.reservedOp op) := by
  revert op
  decide

/-- R64: a step with a reserved `OP`. -/
theorem step_of_reserved {s : State} (h : legalOp s.operands.op = false) :
    step s = .next (s.stop ⟨.illegalOp, s.operands.op.setWidth 8⟩) := by
  rw [step, State.fetchOp_eq, (legalOp_eq_false_iff_decode _).1 h]
  rfl

end Sys2Proof.Machine

namespace Sys2Proof.Claims

open Sys2Proof Sys2Proof.Machine

/-- Settles O2: the nine words are the codes of the operations, and `decode_encode` reads them back. -/
theorem operationWordsDecode : Obligations.OperationWordsDecode :=
  ⟨decode_encode .pchk, decode_encode .lchk, decode_encode .encode, decode_encode .validate,
    decode_encode .decodeSys, decode_encode .decodeMfr, decode_encode .decodeCap,
    decode_encode .decodeRt, decode_encode .alarmMap⟩

/-- Settles O3: the two directions of the inverse, and the exact set of refused values. -/
theorem decodeInvertsEncode : Obligations.DecodeInvertsEncode :=
  ⟨decode_encode, fun _ _ => eq_encode_of_decode, legalOp_eq_false_iff_decode⟩

/-- Settles O4: the decoder refuses a reserved `OP`, and the step is then a `stop` (`step_of_reserved`). -/
theorem reservedOpEndsIllegalOp : Obligations.ReservedOpEndsIllegalOp := by
  intro s hop
  have hreserved : legalOp s.operands.op = false :=
    (legalOp_eq_false_iff _).2 (hop.imp_left fun hzero => by rw [hzero]; rfl)
  exact ⟨_, step_of_reserved hreserved, s.stop_endsStopped ⟨.illegalOp, _⟩⟩

end Sys2Proof.Claims
end

section
/-! PROOFS. The Checksum Engine (40_checksum.md). `PChk` is the negated character sum, so its laws are those
of the sum (R69, R73 (a) to (c)). The four nibbles of an `LChk` add up to 0 modulo 16, and one changed nibble
changes that sum (R71, R73 (d), (e)). -/

namespace Sys2Proof.Machine

open Sys2Proof Sys2Proof.Claims

/-! ## An operation that ends OK -/

/-- R129, R130: what `finish` writes besides the results is what every step that ends OK writes. -/
theorem State.finish_endsOk (s : State) (r : Results) : EndsOk s (s.finish r) :=
  ⟨rfl, rfl, s.finish_keepsInputs r, rfl⟩

/-- R32: the string the host has put in `IN` is the one an operation reads. -/
theorem State.inText_of_inHolds {s : State} {text : Text} (h : InHolds s text) : s.inText = some text := by
  obtain ⟨hlen, -, hread⟩ := h
  exact (s.inText_eq_some text).2 ⟨hlen, fun i hi => hread i (hlen ▸ hi)⟩

/-- R34: a string that the host has put in `IN` reaches the body of the operation. -/
theorem State.onIn_of_inHolds {s : State} {text : Text} (h : InHolds s text)
    (body : Text → Host.Outcome State Fault Refusal) : s.onIn none body = body text := by
  have hlegal : s.operands.inLen.toNat ≤ inCap := by
    obtain ⟨hlen, hcap, -⟩ := h
    exact hlen ▸ hcap
  exact State.onIn_run hlegal (State.inText_of_inHolds h) body

/-! ## The packet checksum -/

/-- R73 (a). -/
theorem pktChk_append (a b : Text) : pktChk (a ++ b) = pktChk a + pktChk b := by
  apply BitVec.eq_of_toNat_eq
  rw [BitVec.toNat_add, pktChk_toNat, pktChk_toNat, pktChk_toNat, byteSum_append]
  omega

/-- R73 (b). -/
theorem byteSum_add_pktChk (s : Text) : (byteSum s + (pktChk s).toNat) % 65536 = 0 := by
  rw [pktChk_toNat]
  omega

/-! ## The length checksum -/

/-- R73 (d), as a bit vector. -/
theorem lenChk_setWidth (n : BitVec 12) : (lenChk n).setWidth 12 = n := by
  apply BitVec.eq_of_toNat_eq
  rw [BitVec.toNat_setWidth]
  exact lenChk_mod n

/-- R73 (d): a length is read back from its checksum, so no two lengths share one. -/
theorem lenChk_injective : Function.Injective lenChk :=
  Function.LeftInverse.injective lenChk_setWidth

/-- R73 (e): the sum modulo 16 of the four nibbles of a value. -/
def nibbleSum (v : BitVec 16) : BitVec 4 := ∑ j ∈ Finset.range 4, v.extractLsb' (4 * j) 4

theorem nibbleSum_toNat (v : BitVec 16) : (nibbleSum v).toNat =
    (v.toNat % 16 + v.toNat / 16 % 16 + v.toNat / 256 % 16 + v.toNat / 4096) % 16 := by
  have hv := v.isLt
  simp only [nibbleSum, Finset.sum_range_succ, Finset.sum_range_zero, zero_add, BitVec.toNat_add,
    BitVec.extractLsb'_toNat, Nat.shiftRight_eq_div_pow]
  omega

/-- R73 (e): the checksum nibble is chosen so that the four nibbles cancel (`lenChk_iff`). -/
theorem nibbleSum_lenChk (n : BitVec 12) : nibbleSum (lenChk n) = 0 := by
  have hlow : BitVec.ofNat 12 (lenChk n).toNat = n := by
    rw [BitVec.ofNat_toNat, lenChk_setWidth]
  apply BitVec.eq_of_toNat_eq
  rw [nibbleSum_toNat]
  exact (lenChk_iff _ (lenChk n).isLt).1 (by rw [hlow])

/-- Values that agree in every nibble but one have different sums: the others cancel. -/
theorem nibbleSum_ne_of_one_nibble {v w : BitVec 16} {k : Nat} (hk : k < 4)
    (h : ∀ j, j < 4 → (v.extractLsb' (4 * j) 4 = w.extractLsb' (4 * j) 4 ↔ j ≠ k)) :
    nibbleSum v ≠ nibbleSum w := by
  have hmem : k ∈ Finset.range 4 := Finset.mem_range.2 hk
  have hrest : ∑ j ∈ (Finset.range 4).erase k, v.extractLsb' (4 * j) 4 =
      ∑ j ∈ (Finset.range 4).erase k, w.extractLsb' (4 * j) 4 := by
    refine Finset.sum_congr rfl fun j hj => ?_
    obtain ⟨hne, hj⟩ := Finset.mem_erase.1 hj
    exact (h j (Finset.mem_range.1 hj)).2 hne
  intro hsum
  rw [nibbleSum, nibbleSum, ← Finset.add_sum_erase _ _ hmem, ← Finset.add_sum_erase _ _ hmem, hrest] at hsum
  exact (h k hk).1 (add_right_cancel hsum) rfl

end Sys2Proof.Machine

namespace Sys2Proof.Claims

open Sys2Proof Sys2Proof.Machine

/-- Settles O6: on a string in `IN`, PCHK is a `finish` with the checksum (`State.onIn_of_inHolds`), whose
closed form is `pktChk_toNat`. -/
theorem pchkDeliversPacketChecksum : Obligations.PchkDeliversPacketChecksum := by
  intro s text hin
  exact ⟨_, pktChk text, State.onIn_of_inHolds hin _, s.finish_endsOk _, rfl, rfl, Memory.read_nil,
    pktChk_toNat text⟩

/-- Settles O7: the three laws of the negated sum. -/
theorem packetChecksumLaws : Obligations.PacketChecksumLaws :=
  ⟨pktChk_append, byteSum_add_pktChk, fun _ _ _ _ => pktChk_change⟩

/-- Settles O8: LCHK is a `finish` in every state, and `lenChk_toNat` gives the value. -/
theorem lchkDeliversLengthChecksum : Obligations.LchkDeliversLengthChecksum := by
  intro s
  refine ⟨_, lenChk s.operands.len12, _, rfl, s.finish_endsOk _, rfl, rfl, Memory.read_nil, rfl, ?_⟩
  rw [lenChk_toNat, lenNibble_toNat]

/-- Settles O9: the last law holds because the nibbles of every `LChk` add up to 0 (`nibbleSum_lenChk`), and
those of a value with one wrong nibble do not. -/
theorem lengthChecksumLaws : Obligations.LengthChecksumLaws := by
  refine ⟨lenChk_setWidth, fun _ _ heq => lenChk_injective heq, ?_⟩
  rintro n m v k hk hnibbles rfl
  refine nibbleSum_ne_of_one_nibble hk hnibbles ?_
  rw [nibbleSum_lenChk, nibbleSum_lenChk]

end Sys2Proof.Claims
end

section
/-! PROOFS. The Frame Encoder (41_frame_encoder.md). ENCODE tests the contract of R77 (`infoProblem`) and then
writes the frame of R75. Each field of the frame is a substring, known by what stands before it (R79). -/

namespace Sys2Proof.Machine

open Sys2Proof Sys2Proof.Claims

/-! ## An operation that delivers a string -/

/-- R20, R32: `OUT` and `OUT_LEN` hold the string, and no other result holds a value. -/
theorem State.finish_deliversOut (s : State) {f : Text} (h : f.length ≤ outCap) :
    DeliversOut (s.finish (Results.ofOut f)) f := by
  have hcap : f.length < 2 ^ 13 := Nat.lt_of_le_of_lt h (by decide)
  exact ⟨rfl, ⟨_, rfl, (BitVec.toNat_ofNat _ _).trans (Nat.mod_eq_of_lt hcap)⟩,
    Memory.read_writeText_nil f, Results.outText_ofOut h⟩

/-! ## The contract on the information string -/

/-- R77 (c), for all characters at once. -/
theorem all_isUpperHex_iff (s : Text) :
    s.all isUpperHex = true ↔
      ∀ c ∈ s, (0x30 ≤ c.toNat ∧ c.toNat ≤ 0x39) ∨ (0x41 ≤ c.toNat ∧ c.toNat ≤ 0x46) := by
  simp only [List.all_eq_true, isUpperHex_iff]

theorem infoProblem_of_odd {info : Text} (hodd : info.length % 2 ≠ 0) : infoProblem info = some 1 := by
  rw [infoProblem, if_pos hodd]

theorem infoProblem_of_long {info : Text} (heven : info.length % 2 = 0) (hlong : 4094 < info.length) :
    infoProblem info = some 2 := by
  rw [infoProblem, if_neg (not_not.2 heven), if_pos hlong]

/-- R77 (c): with a legal length, the characters decide. -/
theorem infoProblem_of_length {info : Text} (heven : info.length % 2 = 0) (hlen : info.length ≤ 4094) :
    infoProblem info = if info.all isUpperHex then none else some 3 := by
  rw [infoProblem, if_neg (not_not.2 heven), if_neg (Nat.not_lt.2 hlen)]

theorem infoProblem_of_legal {info : Text} (h : LegalInfo info) : infoProblem info = none := by
  obtain ⟨heven, hlen, hdigits⟩ := h
  rw [infoProblem_of_length heven hlen, if_pos ((all_isUpperHex_iff info).2 hdigits)]

theorem infoProblem_of_badDigit {info : Text} (heven : info.length % 2 = 0) (hlen : info.length ≤ 4094)
    (hbad : ∃ c ∈ info, ¬((0x30 ≤ c.toNat ∧ c.toNat ≤ 0x39) ∨ (0x41 ≤ c.toNat ∧ c.toNat ≤ 0x46))) :
    infoProblem info = some 3 := by
  obtain ⟨c, hc, hnot⟩ := hbad
  rw [infoProblem_of_length heven hlen, if_neg fun hall => hnot ((all_isUpperHex_iff info).1 hall c hc)]

/-! ## ENCODE on a string in `IN` -/

theorem exec_encode_of_problem {s : State} {info : Text} {reason : BitVec 8} (hin : InHolds s info)
    (h : infoProblem info = some reason) : exec .encode s = .next (s.stop ⟨.badInfo, reason⟩) := by
  refine (State.onIn_of_inHolds hin _).trans ?_
  rw [h]

theorem exec_encode_of_legal {s : State} {info : Text} (hin : InHolds s info) (h : LegalInfo info) :
    exec .encode s = .next (s.finish (Results.ofOut
      (encodeFrame s.operands.addr s.operands.cid1 s.operands.cid2 info))) := by
  refine (State.onIn_of_inHolds hin _).trans ?_
  rw [infoProblem_of_legal h]

/-- R77, R137: a broken contract is a FAULT with the reason in `RINFO`. -/
theorem exec_encode_faults {s : State} {info : Text} {reason : BitVec 8} (hin : InHolds s info)
    (h : infoProblem info = some reason) :
    ∃ t, exec .encode s = .next t ∧ EndsStopped s t 0x83 reason :=
  ⟨_, exec_encode_of_problem hin h, s.stop_endsStopped ⟨.badInfo, reason⟩⟩

/-! ## The fields of a frame -/

/-- R75, with the LEN field of every count written the same way (R78). -/
theorem frameBody_eq (a c1 c2 : BitVec 8) (info : Text) :
    frameBody a c1 c2 info = [0x32, 0x32] ++ hexStr 2 a.toNat ++ hexStr 2 c1.toNat ++
      hexStr 2 c2.toNat ++ hexStr 4 (lenChk (BitVec.ofNat 12 info.length)).toNat ++ info := by
  rw [frameBody, lenField_eq]; rfl

/-- A substring is known by what stands before it and after it. -/
theorem sub_of_eq_append {f a b c : Text} (hf : f = a ++ (b ++ c)) {off n : Nat} (ho : off = a.length)
    (hn : n = b.length) : sub f off n = b := by
  rw [hf, sub_mid a b c ho hn]

theorem getElem?_sub (s : Text) (off : Nat) {n j : Nat} (h : j < n) : (sub s off n)[j]? = s[off + j]? := by
  rw [sub, List.getElem?_take_of_lt h, List.getElem?_drop]

/-- R106 (d): a 16-bit value is read back from its four digits. -/
theorem parseHex_hexStr_word (v : BitVec 16) : parseHex (hexStr 4 v.toNat) = some v.toNat :=
  parseHex_hexStr v.isLt

section

variable (a c1 c2 : BitVec 8) (info : Text)

theorem sub_encodeFrame_body :
    sub (encodeFrame a c1 c2 info) 1 (12 + info.length) = frameBody a c1 c2 info :=
  sub_of_eq_append (a := [soi]) (by rw [encodeFrame, List.append_assoc, List.append_assoc]) rfl
    (frameBody_length a c1 c2 info).symm

theorem sub_encodeFrame_chk :
    sub (encodeFrame a c1 c2 info) (13 + info.length) 4 =
      hexStr 4 (pktChk (frameBody a c1 c2 info)).toNat :=
  sub_of_eq_append (a := [soi] ++ frameBody a c1 c2 info) (by rw [encodeFrame, List.append_assoc])
    (by simp; omega) (hexStr_length 4 _).symm

/-- Everything between the start marker and the terminator. -/
theorem sub_encodeFrame_inner :
    sub (encodeFrame a c1 c2 info) 1 (16 + info.length) =
      frameBody a c1 c2 info ++ hexStr 4 (pktChk (frameBody a c1 c2 info)).toNat :=
  sub_of_eq_append (a := [soi]) (encodeFrame_eq a c1 c2 info) rfl (by simp; omega)

theorem sub_encodeFrame_ver : sub (encodeFrame a c1 c2 info) 1 2 = verText :=
  sub_of_eq_append (a := [soi]) (by simp only [encodeFrame, frameBody, List.append_assoc]; rfl) rfl rfl

theorem sub_encodeFrame_len :
    sub (encodeFrame a c1 c2 info) 9 4 = lenField info.length :=
  sub_of_eq_append
    (a := [soi] ++ (verText ++ (hexStr 2 a.toNat ++ (hexStr 2 c1.toNat ++ hexStr 2 c2.toNat))))
    (by simp only [encodeFrame, frameBody, List.append_assoc]; rfl) (by simp) (lenField_length _).symm

theorem sub_encodeFrame_info : sub (encodeFrame a c1 c2 info) 13 info.length = info :=
  sub_of_eq_append
    (a := [soi] ++ (verText ++ (hexStr 2 a.toNat ++ (hexStr 2 c1.toNat ++ (hexStr 2 c2.toNat ++
      lenField info.length)))))
    (by simp only [encodeFrame, frameBody, List.append_assoc]; rfl) (by simp) rfl

/-! ## The characters of a frame -/

theorem encodeFrame_first : (encodeFrame a c1 c2 info)[0]? = some soi := by
  rw [encodeFrame_eq]; rfl

theorem encodeFrame_last : (encodeFrame a c1 c2 info)[17 + info.length]? = some eoi := by
  have hlast : (encodeFrame a c1 c2 info).getLast? = some eoi := by
    rw [encodeFrame, List.getLast?_concat]
  have hindex : 18 + info.length - 1 = 17 + info.length := by omega
  rwa [List.getLast?_eq_getElem?, encodeFrame_length, hindex] at hlast

end

/-- R79 (b): every field before CHK is rendered or is INFO. -/
theorem frameBody_isUpperHex (a c1 c2 : BitVec 8) {info : Text} (h : info.all isUpperHex = true) :
    (frameBody a c1 c2 info).all isUpperHex = true := by
  have hver : verText.all isUpperHex = true := by decide
  rw [frameBody, lenField_eq]
  simp only [List.all_append, hver, hexStr_isUpperHex, h, Bool.and_true]

/-- R79 (b): between the marker and the terminator stand digits only. -/
theorem encodeFrame_inner_isUpperHex (a c1 c2 : BitVec 8) {info : Text}
    (h : info.all isUpperHex = true) {i : Nat} (hi : 1 ≤ i) (hlt : i < 17 + info.length) :
    ∃ c, (encodeFrame a c1 c2 info)[i]? = some c ∧ isUpperHex c = true := by
  obtain ⟨j, rfl⟩ := Nat.exists_eq_add_of_le hi
  have hj : j < 16 + info.length := by omega
  have hall : (sub (encodeFrame a c1 c2 info) 1 (16 + info.length)).all isUpperHex = true := by
    rw [sub_encodeFrame_inner, List.all_append, frameBody_isUpperHex a c1 c2 h, hexStr_isUpperHex]; rfl
  have hlen : j < (sub (encodeFrame a c1 c2 info) 1 (16 + info.length)).length := by
    rw [sub_length, encodeFrame_length]; omega
  rw [← getElem?_sub _ _ hj, List.getElem?_eq_getElem hlen]
  exact ⟨_, rfl, List.all_eq_true.1 hall _ (List.getElem_mem hlen)⟩

end Sys2Proof.Machine

namespace Sys2Proof.Claims

open Sys2Proof Sys2Proof.Machine

/-- Settles O10: on a legal string in `IN`, ENCODE is a `finish` with the frame (`exec_encode_of_legal`), which
fits in `OUT`. -/
theorem encodeDeliversFrame : Obligations.EncodeDeliversFrame := by
  intro s info hin hlegal
  have hfits := encodeFrame_length_le (a := s.operands.addr) (c1 := s.operands.cid1)
    (c2 := s.operands.cid2) (infoProblem_of_legal hlegal)
  exact ⟨_, _, exec_encode_of_legal hin hlegal, s.finish_endsOk _, rfl, frameBody_eq _ _ _ info,
    s.finish_deliversOut hfits⟩

/-- Settles O11: `infoProblem` is the lowest reason that applies, and ENCODE stops with it
(`exec_encode_faults`). -/
theorem encodeFaultsBadInfo : Obligations.EncodeFaultsBadInfo := by
  intro s info hin
  exact ⟨fun hodd => exec_encode_faults hin (infoProblem_of_odd hodd),
    fun heven hlong => exec_encode_faults hin (infoProblem_of_long heven hlong),
    fun heven hlen hbad => exec_encode_faults hin (infoProblem_of_badDigit heven hlen hbad)⟩

/-- Settles O12: the characters and the fields of `encodeFrame`, one lemma each; LEN and CHK are rendered
values, so they parse back (`parseHex_hexStr_word`). -/
theorem encodedFrameShape : Obligations.EncodedFrameShape := by
  rintro a c1 c2 info f ⟨-, -, hdigits⟩ rfl
  have hup := (all_isUpperHex_iff info).2 hdigits
  refine ⟨encodeFrame_length a c1 c2 info, encodeFrame_first a c1 c2 info,
    encodeFrame_last a c1 c2 info, fun i hi hlt => ?_, sub_encodeFrame_ver a c1 c2 info, ?_, ?_,
    sub_encodeFrame_info a c1 c2 info⟩
  · obtain ⟨c, hc, hcup⟩ := encodeFrame_inner_isUpperHex a c1 c2 hup hi hlt
    exact ⟨c, hc, (isUpperHex_iff c).1 hcup⟩
  · rw [sub_encodeFrame_len, lenField_eq, parseHex_hexStr_word]
  · rw [sub_encodeFrame_chk, sub_encodeFrame_body, parseHex_hexStr_word]

end Sys2Proof.Claims
end

section
/-! PROOFS. The Frame Validator (42_frame_validator.md). Its checks read the body, which is the string without
one trailing terminator (R81). Each check that passes is a field of one of the structures below, in the order
of R80, so that the outcome of VALIDATE is known from the first check that fails (R82 to R88). One changed
character, or a shorter body, is then followed from check to check (R90). -/

namespace Sys2Proof.Machine

open Sys2Proof Sys2Proof.Claims

/-! ## The body -/

theorem hasBody_terminated (body : Text) : HasBody (body ++ [eoi]) body := Or.inl rfl

theorem hasBody_exhausted {body : Text} (h : body.getLast? ≠ some eoi) : HasBody body body :=
  Or.inr ⟨rfl, h⟩

theorem bodyLength_of_hasBody {raw body : Text} (h : HasBody raw body) : bodyLength raw = body.length := by
  rcases h with rfl | ⟨rfl, hlast⟩
  · exact bodyLength_terminated body
  · exact bodyLength_exhausted hlast

/-- R81: a field inside the body does not see the terminator. -/
theorem sub_of_hasBody {raw body : Text} (h : HasBody raw body) {off n : Nat} (hin : off + n ≤ body.length) :
    sub raw off n = sub body off n := by
  rcases h with rfl | ⟨rfl, -⟩
  · exact sub_append_left hin
  · rfl

theorem first_of_hasBody {raw body : Text} (h : HasBody raw body) (hlen : 17 ≤ body.length) :
    raw[0]? = body[0]? := by
  rcases h with rfl | ⟨rfl, -⟩
  · exact List.getElem?_append_left (by omega)
  · rfl

/-! ## The checks, one by one -/

/-- Steps 0a to 0c pass (R81 to R83). -/
structure MarkersPass (raw body : Text) : Prop where
  hasBody : HasBody raw body
  long : 17 ≤ body.length
  marker : body[0]? = some soi

/-- Steps 0a to 1 pass (R84). -/
structure StatusPasses (raw body : Text) : Prop extends MarkersPass raw body where
  status : parseHex (sub body 7 2) = some 0

/-- Steps 0a to 2 pass, with the value `l` in LEN (R85). -/
structure LengthPasses (raw body : Text) (l : Nat) : Prop extends StatusPasses raw body where
  lenField : parseHex (sub body 9 4) = some l
  lenValid : (lenChk (BitVec.ofNat 12 l)).toNat = l

/-- Steps 0a to 3 pass (R86). -/
structure PacketPasses (raw body : Text) (l : Nat) : Prop extends LengthPasses raw body l where
  chkField : parseHex (sub body (body.length - 4) 4) = some (pktChk (sub body 1 (body.length - 5))).toNat

section

variable {raw body : Text}

/-- R82. -/
theorem validate_frameTooShort (h : HasBody raw body) (hlen : body.length < 17) :
    validate raw = .error ⟨.frameTooShort, 0⟩ := by
  have hcheck : checkMarkers raw = .error ⟨.frameTooShort, 0⟩ := by
    rw [checkMarkers, bodyLength_of_hasBody h, if_pos (by exact hlen)]
  rw [validate, hcheck]; rfl

/-- R83. -/
theorem validate_badMarker (h : HasBody raw body) (hlen : 17 ≤ body.length) (hfirst : body[0]? ≠ some soi) :
    validate raw = .error ⟨.badMarker, 0⟩ := by
  have hcheck : checkMarkers raw = .error ⟨.badMarker, 0⟩ := by
    rw [checkMarkers, bodyLength_of_hasBody h, if_neg (by exact Nat.not_lt.2 hlen),
      first_of_hasBody h hlen, if_neg hfirst]
  rw [validate, hcheck]; rfl

theorem MarkersPass.checkMarkers_eq (h : MarkersPass raw body) : checkMarkers raw = .ok () := by
  rw [checkMarkers, bodyLength_of_hasBody h.hasBody, if_neg (by exact Nat.not_lt.2 h.long),
    first_of_hasBody h.hasBody h.long, if_pos h.marker]

/-- R81: the status and LEN stand in the header, which every body of 17 characters has. -/
theorem MarkersPass.sub_eq (h : MarkersPass raw body) {off n : Nat} (hin : off + n ≤ 17) :
    sub raw off n = sub body off n :=
  sub_of_hasBody h.hasBody (hin.trans h.long)

/-- R84, a status field that does not parse. -/
theorem MarkersPass.validate_statusField (h : MarkersPass raw body) (hs : parseHex (sub body 7 2) = none) :
    validate raw = .error ⟨.fieldDecodeError, 0⟩ := by
  have hcheck : checkStatus raw = .error ⟨.fieldDecodeError, 0⟩ := by
    rw [checkStatus, h.sub_eq (by omega), hs]
  rw [validate, h.checkMarkers_eq, hcheck]; rfl

/-- R84, a status other than success. -/
theorem MarkersPass.validate_statusRejected (h : MarkersPass raw body) {c : Nat}
    (hs : parseHex (sub body 7 2) = some c) (hc : c ≠ 0) :
    validate raw = .error ⟨.statusRejected, BitVec.ofNat 8 c⟩ := by
  have hcheck : checkStatus raw = .error ⟨.statusRejected, BitVec.ofNat 8 c⟩ := by
    rw [checkStatus, h.sub_eq (by omega), hs]
    exact if_neg hc
  rw [validate, h.checkMarkers_eq, hcheck]; rfl

theorem StatusPasses.checkStatus_eq (h : StatusPasses raw body) : checkStatus raw = .ok () := by
  rw [checkStatus, h.sub_eq (by omega), h.status]; rfl

/-- R85. -/
theorem StatusPasses.validate_lengthChecksum (h : StatusPasses raw body)
    (hl : ∀ l, parseHex (sub body 9 4) = some l → (lenChk (BitVec.ofNat 12 l)).toNat ≠ l) :
    validate raw = .error ⟨.lengthChecksumMismatch, 0⟩ := by
  have hcheck : checkLength raw = .error ⟨.lengthChecksumMismatch, 0⟩ := by
    rw [checkLength, h.sub_eq (by omega)]
    cases hp : parseHex (sub body 9 4) with
    | none => rfl
    | some l => exact if_neg (hl l hp)
  rw [validate, h.checkMarkers_eq, h.checkStatus_eq, hcheck]; rfl

variable {l : Nat}

theorem LengthPasses.checkLength_eq (h : LengthPasses raw body l) :
    checkLength raw = .ok (BitVec.ofNat 12 l) := by
  rw [checkLength, h.sub_eq (by omega), h.lenField]
  exact if_pos h.lenValid

/-- R86: the checksum field ends the body, and what it covers stands before it. -/
theorem MarkersPass.packet_sub_eq (h : MarkersPass raw body) :
    sub raw (bodyLength raw - 4) 4 = sub body (body.length - 4) 4 ∧
      sub raw 1 (bodyLength raw - 5) = sub body 1 (body.length - 5) := by
  have hlong := h.long
  rw [bodyLength_of_hasBody h.hasBody]
  exact ⟨sub_of_hasBody h.hasBody (by omega), sub_of_hasBody h.hasBody (by omega)⟩

/-- R86. -/
theorem LengthPasses.validate_packetChecksum (h : LengthPasses raw body l)
    (hk : parseHex (sub body (body.length - 4) 4) ≠ some (pktChk (sub body 1 (body.length - 5))).toNat) :
    validate raw = .error ⟨.packetChecksumMismatch, 0⟩ := by
  have hcheck : checkPacket raw = .error ⟨.packetChecksumMismatch, 0⟩ := by
    obtain ⟨hfield, hcovered⟩ := h.packet_sub_eq
    rw [checkPacket, hfield, hcovered]
    cases hp : parseHex (sub body (body.length - 4) 4) with
    | none => rfl
    | some k => exact if_neg fun heq => hk (by rw [hp, heq])
  rw [validate, h.checkMarkers_eq, h.checkStatus_eq, h.checkLength_eq, hcheck]; rfl

theorem PacketPasses.checkPacket_eq (h : PacketPasses raw body l) : checkPacket raw = .ok () := by
  obtain ⟨hfield, hcovered⟩ := h.packet_sub_eq
  rw [checkPacket, hfield, hcovered, h.chkField]
  exact if_pos rfl

/-- R87: the count that LEN claims. -/
theorem checkCount_eq (h : HasBody raw body) :
    checkCount raw (BitVec.ofNat 12 l) =
      if l % 4096 = body.length - 17 then .ok () else .error ⟨.lengthMismatch, 0⟩ := by
  rw [checkCount, bodyLength_of_hasBody h, BitVec.toNat_ofNat]; rfl

/-- R88: the payload stands between header and checksum. -/
theorem MarkersPass.payloadOf_eq (h : MarkersPass raw body) :
    payloadOf raw = sub body 13 (body.length - 17) := by
  have hlong := h.long
  rw [payloadOf, bodyLength_of_hasBody h.hasBody]
  exact sub_of_hasBody h.hasBody (by simp only [hdrLen, trailerLen]; omega)

/-- R80: after step 3 the count decides. -/
theorem PacketPasses.validate_eq (h : PacketPasses raw body l) :
    validate raw = checkCount raw (BitVec.ofNat 12 l) >>= fun _ => .ok (payloadOf raw) := by
  rw [validate, h.checkMarkers_eq, h.checkStatus_eq, h.checkLength_eq, h.checkPacket_eq]; rfl

/-- R87. -/
theorem PacketPasses.validate_lengthMismatch (h : PacketPasses raw body l)
    (hcount : l % 4096 ≠ body.length - 17) : validate raw = .error ⟨.lengthMismatch, 0⟩ := by
  rw [h.validate_eq, checkCount_eq h.hasBody, if_neg hcount]; rfl

/-- R88. -/
theorem PacketPasses.validate_ok (h : PacketPasses raw body l) (hcount : l % 4096 = body.length - 17) :
    validate raw = .ok (sub body 13 (body.length - 17)) := by
  rw [h.validate_eq, checkCount_eq h.hasBody, if_pos hcount, h.payloadOf_eq]; rfl

/-- R80: an accepted string has passed every check. -/
theorem packetPasses_of_validate_ok {p : Text} (hb : HasBody raw body) (h : validate raw = .ok p) :
    ∃ l, PacketPasses raw body l ∧ l % 4096 = body.length - 17 ∧ p = sub body 13 (body.length - 17) := by
  obtain ⟨hlong, hmarker, hstatus, ⟨l, hl, hvalid, hcount⟩, ⟨k, hk, rfl⟩, rfl⟩ :=
    (validate_ok_iff raw p).1 h
  rw [bodyLength_of_hasBody hb] at hlong hcount
  have hm : MarkersPass raw body := ⟨hb, hlong, first_of_hasBody hb hlong ▸ hmarker⟩
  obtain ⟨hfield, hcovered⟩ := hm.packet_sub_eq
  rw [hfield, hcovered] at hk
  rw [hm.sub_eq (by omega)] at hstatus hl
  exact ⟨l, ⟨⟨⟨hm, hstatus⟩, hl, hvalid⟩, hk⟩, (BitVec.toNat_ofNat l 12).symm.trans hcount,
    hm.payloadOf_eq⟩

end

/-! ## VALIDATE on a string in `IN` -/

theorem exec_validate_of_error {s : State} {raw : Text} {e : Stop} (hin : InHolds s raw)
    (h : validate raw = .error e) : exec .validate s = .next (s.stop e) := by
  refine (State.onIn_of_inHolds hin _).trans ?_
  rw [h]; rfl

theorem exec_validate_of_ok {s : State} {raw p : Text} (hin : InHolds s raw) (h : validate raw = .ok p) :
    exec .validate s = .next (s.finish (Results.ofOut p)) := by
  refine (State.onIn_of_inHolds hin _).trans ?_
  rw [h]; rfl

/-- R137: a failed check is a REJECT with its cause and its `RINFO`. -/
theorem exec_validate_rejects {s : State} {raw : Text} {e : Stop} (hin : InHolds s raw)
    (h : validate raw = .error e) :
    ∃ t, exec .validate s = .next t ∧ EndsStopped s t e.cause.code e.info :=
  ⟨_, exec_validate_of_error hin h, s.stop_endsStopped e⟩

end Sys2Proof.Machine

namespace Sys2Proof.Claims

open Sys2Proof Sys2Proof.Machine

/-- Settles O13: the string passes every check (`PacketPasses.validate_ok`), and the payload fits in `OUT`. -/
theorem validateDeliversPayload : Obligations.ValidateDeliversPayload := by
  rintro s raw body l k hin hb hlong hmarker hstatus hl hvalid hk rfl hcount
  have hpass : PacketPasses raw body l := ⟨⟨⟨⟨hb, hlong, hmarker⟩, hstatus⟩, hl, hvalid⟩, hk⟩
  have hok := hpass.validate_ok hcount
  exact ⟨_, exec_validate_of_ok hin hok, s.finish_endsOk _, rfl,
    s.finish_deliversOut (validate_ok_length_le hok)⟩

/-- Settles O14: the two outcomes of step 0. -/
theorem validateRejectsShortOrUnmarked : Obligations.ValidateRejectsShortOrUnmarked := by
  intro s raw body hin hb
  exact ⟨fun hlen => exec_validate_rejects hin (validate_frameTooShort hb hlen),
    fun hlong hfirst => exec_validate_rejects hin (validate_badMarker hb hlong hfirst)⟩

/-- Settles O15: the two outcomes of step 1, which nothing but step 0 comes before. -/
theorem validateRejectsStatus : Obligations.ValidateRejectsStatus := by
  intro s raw body hin hb hlong hmarker
  have hpass : MarkersPass raw body := ⟨hb, hlong, hmarker⟩
  exact ⟨fun hs => exec_validate_rejects hin (hpass.validate_statusField hs),
    fun _ hs hc => exec_validate_rejects hin (hpass.validate_statusRejected hs hc)⟩

/-- Settles O16: a LEN field that does not parse and one with a wrong value fail step 2 alike. -/
theorem validateRejectsLengthField : Obligations.ValidateRejectsLengthField := by
  intro s raw body hin hb hlong hmarker hstatus hbad
  have hpass : StatusPasses raw body := ⟨⟨hb, hlong, hmarker⟩, hstatus⟩
  refine exec_validate_rejects hin (hpass.validate_lengthChecksum fun l hl => ?_)
  rcases hbad with hnone | ⟨l', hl', hne⟩
  · cases hnone.symm.trans hl
  · cases hl'.symm.trans hl; exact hne

/-- Settles O17: a checksum field that does not parse and one with a wrong value fail step 3 alike. -/
theorem validateRejectsPacketChecksum : Obligations.ValidateRejectsPacketChecksum := by
  intro s raw body l hin hb hlong hmarker hstatus hl hvalid hbad
  have hpass : LengthPasses raw body l := ⟨⟨⟨hb, hlong, hmarker⟩, hstatus⟩, hl, hvalid⟩
  refine exec_validate_rejects hin (hpass.validate_packetChecksum fun heq => ?_)
  rcases hbad with hnone | ⟨k, hk, hne⟩
  · cases hnone.symm.trans heq
  · cases hk.symm.trans heq; exact hne rfl

/-- Settles O18: step 3b, with every check before it passed. -/
theorem validateRejectsCount : Obligations.ValidateRejectsCount := by
  rintro s raw body l k hin hb hlong hmarker hstatus hl hvalid hk rfl hcount
  have hpass : PacketPasses raw body l := ⟨⟨⟨⟨hb, hlong, hmarker⟩, hstatus⟩, hl, hvalid⟩, hk⟩
  exact exec_validate_rejects hin (hpass.validate_lengthMismatch hcount)

end Sys2Proof.Claims
end

section
/-! PROOFS. ENCODE, the host's copy and VALIDATE (42_frame_validator.md R90 (a)). A frame passes the marker
check, and its LEN and CHK are the values that VALIDATE computes (R79); the status field is the CID2 of the
request (R49). -/

namespace Sys2Proof.Machine

open Sys2Proof Sys2Proof.Claims

/-! ## The frame under the checks -/

/-- R75 without the terminator: marker, body, checksum. -/
def unterminatedFrame (a c1 c2 : BitVec 8) (info : Text) : Text :=
  soi :: (frameBody a c1 c2 info ++ hexStr 4 (pktChk (frameBody a c1 c2 info)).toNat)

section

variable (a c1 c2 : BitVec 8) (info : Text)

theorem encodeFrame_hasBody : HasBody (encodeFrame a c1 c2 info) (unterminatedFrame a c1 c2 info) := by
  rw [encodeFrame_eq]
  exact hasBody_terminated _

theorem unterminatedFrame_length : (unterminatedFrame a c1 c2 info).length = 17 + info.length := by
  simp [unterminatedFrame]; omega

/-- The fields of the frame (`sub_encodeFrame_len` and the like) are fields of its body. -/
theorem sub_unterminatedFrame {off n : Nat} (hin : off + n ≤ 17 + info.length) :
    sub (unterminatedFrame a c1 c2 info) off n = sub (encodeFrame a c1 c2 info) off n :=
  (sub_of_hasBody (encodeFrame_hasBody a c1 c2 info) (by rwa [unterminatedFrame_length])).symm

/-- R49: VALIDATE reads a status where ENCODE has written CID2. -/
theorem sub_encodeFrame_cid2 : sub (encodeFrame a c1 c2 info) 7 2 = hexStr 2 c2.toNat :=
  sub_of_eq_append (a := [soi] ++ (verText ++ (hexStr 2 a.toNat ++ hexStr 2 c1.toNat)))
    (by simp only [encodeFrame, frameBody, List.append_assoc]; rfl) (by simp) (hexStr_length 2 _).symm

theorem unterminatedFrame_markersPass :
    MarkersPass (encodeFrame a c1 c2 info) (unterminatedFrame a c1 c2 info) :=
  ⟨encodeFrame_hasBody a c1 c2 info, by rw [unterminatedFrame_length]; omega, rfl⟩

theorem parseHex_unterminatedFrame_status :
    parseHex (sub (unterminatedFrame a c1 c2 info) 7 2) = some c2.toNat := by
  rw [sub_unterminatedFrame _ _ _ _ (by omega), sub_encodeFrame_cid2]
  exact parseHex_hexStr c2.isLt

/-- R90 (a), for a request whose CID2 is not the success status. -/
theorem validate_encodeFrame_statusRejected (hc2 : c2 ≠ 0) :
    validate (encodeFrame a c1 c2 info) = .error ⟨.statusRejected, c2⟩ := by
  have hne : c2.toNat ≠ 0 := fun h => hc2 (BitVec.eq_of_toNat_eq h)
  have hrej := (unterminatedFrame_markersPass a c1 c2 info).validate_statusRejected
    (parseHex_unterminatedFrame_status a c1 c2 info) hne
  rwa [BitVec.ofNat_toNat, BitVec.setWidth_eq] at hrej

/-- R79 (d), (e): LEN and CHK of a frame are the values VALIDATE computes. -/
theorem unterminatedFrame_packetPasses :
    PacketPasses (encodeFrame a c1 0 info) (unterminatedFrame a c1 0 info)
      (lenChk (BitVec.ofNat 12 info.length)).toNat where
  toMarkersPass := unterminatedFrame_markersPass a c1 0 info
  status := parseHex_unterminatedFrame_status a c1 0 info
  lenField := by
    rw [sub_unterminatedFrame _ _ _ _ (by omega), sub_encodeFrame_len, lenField_eq, parseHex_hexStr_word]
  lenValid := by rw [BitVec.ofNat_toNat, lenChk_setWidth]
  chkField := by
    have hfield : 17 + info.length - 4 = 13 + info.length := by omega
    have hcovered : 17 + info.length - 5 = 12 + info.length := by omega
    rw [unterminatedFrame_length, hfield, hcovered, sub_unterminatedFrame _ _ _ _ (by omega),
      sub_unterminatedFrame _ _ _ _ (by omega), sub_encodeFrame_chk, sub_encodeFrame_body,
      parseHex_hexStr_word]

end

/-- R90 (a), for CID2 = 0: the count in LEN is the length of the INFO, which 12 bits hold. -/
theorem validate_encodeFrame (a c1 : BitVec 8) {info : Text} (hlen : info.length ≤ 4094) :
    validate (encodeFrame a c1 0 info) = .ok info := by
  have hpayload : (unterminatedFrame a c1 0 info).length - 17 = info.length := by
    rw [unterminatedFrame_length]; omega
  have hcount : (lenChk (BitVec.ofNat 12 info.length)).toNat % 4096 = info.length := by
    rw [lenChk_mod, BitVec.toNat_ofNat]; omega
  rw [(unterminatedFrame_packetPasses a c1 info).validate_ok (hcount.trans hpayload.symm), hpayload,
    sub_unterminatedFrame _ _ _ _ (by omega), sub_encodeFrame_info]

/-! ## The host's copy -/

/-- R66: a string that fits is in `IN` after the load. -/
theorem loadIn_inHolds {s : State} {text : Text} (h : text.length ≤ inCap) :
    ∃ u, s.loadIn text = .next u ∧ InHolds u text ∧
      u.operands = { s.operands with inLen := BitVec.ofNat 13 text.length } := by
  obtain ⟨u, hload, htext, -, -, -, hops⟩ := State.loadIn_next (s := s) h
  obtain ⟨hlen, hread⟩ := (u.inText_eq_some text).1 htext
  exact ⟨u, hload, ⟨hlen, h, fun i hi => hread i (hlen ▸ hi)⟩, hops⟩

/-- R66: after `IN=OUT`, `IN` holds the string that the last operation delivered. -/
theorem copyOut_inHolds {s : State} {f : Text} (h : f.length ≤ outCap) :
    ∃ u, hostAct .copyOut (s.finish (Results.ofOut f)) = .next u ∧ InHolds u f ∧
      u.operands.addr = s.operands.addr := by
  obtain ⟨u, hload, hin, hops⟩ := loadIn_inHolds (s := s.finish (Results.ofOut f)) h
  refine ⟨u, ?_, hin, by rw [hops]; rfl⟩
  rw [← hload]
  show State.copyOut _ = _
  rw [State.copyOut, State.finish_results, Results.outText_ofOut h]

end Sys2Proof.Machine

namespace Sys2Proof.Claims

open Sys2Proof Sys2Proof.Machine

/-- Settles O19: ENCODE delivers the frame, the copy puts it in `IN`, and VALIDATE ends as its function does
on the frame (`validate_encodeFrame`, `validate_encodeFrame_statusRejected`). -/
theorem encodeThenValidateRoundTrip : Obligations.EncodeThenValidateRoundTrip := by
  intro s info hin hlegal
  have ⟨_, hlen, _⟩ := hlegal
  have hfits := encodeFrame_length_le (a := s.operands.addr) (c1 := s.operands.cid1)
    (c2 := s.operands.cid2) (infoProblem_of_legal hlegal)
  obtain ⟨u, hcopy, hu, haddr⟩ := copyOut_inHolds (s := s) hfits
  by_cases hcid2 : s.operands.cid2 = 0
  · rw [hcid2] at hu
    have hok := validate_encodeFrame s.operands.addr s.operands.cid1 hlen
    exact ⟨_, u, _, exec_encode_of_legal hin hlegal, hcopy, exec_validate_of_ok hu hok, haddr,
      fun _ => ⟨u.finish_endsOk _, u.finish_deliversOut (validate_ok_length_le hok)⟩,
      fun hne => absurd hcid2 hne⟩
  · exact ⟨_, u, _, exec_encode_of_legal hin hlegal, hcopy,
      exec_validate_of_error hu (validate_encodeFrame_statusRejected _ _ _ info hcid2), haddr,
      fun heq => absurd heq hcid2, fun _ => u.stop_endsStopped _⟩

end Sys2Proof.Claims
end

section
/-! PROOFS. Damaged frames (42_frame_validator.md R90 (b) to (f)). A field keeps its value when the change
stands outside it or is one of letter case, and otherwise loses it, because each digit of a value can be read
back from it. LEN then breaks the law of one wrong nibble (R73 (e)), and a change in what CHK covers breaks the
law of one wrong byte (R73 (c)). A shorter body keeps the header, so that LEN claims too many characters
(R87). -/

namespace Sys2Proof.Machine

open Sys2Proof Sys2Proof.Claims

/-! ## Substrings of a changed and of a shortened string -/

theorem sub_set_outside (s : Text) {i off n : Nat} (x : Byte) (h : i < off ∨ off + n ≤ i) :
    sub (s.set i x) off n = sub s off n := by
  rw [sub, sub, List.drop_set]
  split
  · rfl
  · rw [List.take_set, List.set_eq_of_length_le (by rw [List.length_take]; omega)]

theorem sub_set_inside (s : Text) {i off : Nat} (n : Nat) (x : Byte) (h : off ≤ i) :
    sub (s.set i x) off n = (sub s off n).set (i - off) x := by
  rw [sub, sub, List.drop_set, if_neg (Nat.not_lt.2 h), List.take_set]

/-- The character that a field has at the place of a character of the string. -/
theorem sub_getElem?_of_getElem? {s : Text} {i off n : Nat} {c : Byte} (hc : s[i]? = some c)
    (hoff : off ≤ i) (hi : i < off + n) : (sub s off n)[i - off]? = some c := by
  rw [getElem?_sub s off (by omega), Nat.add_sub_cancel' hoff, hc]

theorem sub_take (s : Text) {m off n : Nat} (h : off + n ≤ m) : sub (s.take m) off n = sub s off n := by
  rw [sub, sub, List.drop_take, List.take_take, Nat.min_eq_left (by omega)]

/-! ## The digits of a value -/

/-- R11: the value of a string depends on the values of its digits, not on their letter case. -/
theorem parseHexFrom_congr {s t : Text} (h : s.map hexVal = t.map hexVal) (acc : Nat) :
    parseHexFrom acc s = parseHexFrom acc t := by
  induction s generalizing t acc with
  | nil => rw [List.map_eq_nil_iff.1 h.symm]
  | cons c s ih =>
    obtain ⟨d, t, rfl, hd, ht⟩ := List.map_eq_cons_iff.1 h.symm
    rw [parseHexFrom, parseHexFrom, hd]
    cases hexVal c with
    | none => rfl
    | some v => exact ih ht.symm _

/-- A change of letter case alone keeps the value. -/
theorem parseHex_set_of_hexVal_eq {s : Text} {i : Nat} {old new : Byte} (hold : s[i]? = some old)
    (h : hexVal new = hexVal old) : parseHex (s.set i new) = parseHex s := by
  refine parseHexFrom_congr ?_ 0
  obtain ⟨hi, rfl⟩ := List.getElem?_eq_some_iff.1 hold
  rw [List.map_set, h, ← List.map_set, List.set_getElem_self]

theorem parseHex_set_of_noDigit {s : Text} {i : Nat} {old new : Byte} (hold : s[i]? = some old)
    (h : hexVal new = none) : parseHex (s.set i new) = none := by
  obtain ⟨hi, -⟩ := List.getElem?_eq_some_iff.1 hold
  have hmem : new ∈ s.set i new := List.mem_set hi new
  rw [← Option.not_isSome_iff_eq_none, parseHex_isSome]
  intro hall
  cases ((hexVal_eq_none_iff new).1 h).symm.trans (List.all_eq_true.1 hall new hmem)

/-- A digit in the place of a character leaves a field with a value. -/
theorem parseHex_set_of_digit {s : Text} {v i : Nat} {new : Byte} (hs : parseHex s = some v)
    (h : hexVal new ≠ none) : ∃ w, parseHex (s.set i new) = some w := by
  have hall : s.all isHex = true := by rw [← parseHex_isSome, hs]; rfl
  rw [← Option.isSome_iff_exists, parseHex_isSome, List.all_eq_true]
  intro c hc
  rcases List.mem_or_eq_of_mem_set hc with hmem | rfl
  · exact List.all_eq_true.1 hall c hmem
  · exact Option.isSome_iff_ne_none.2 h

/-- R11: the digit with `j` digits behind it is read back from the value. -/
theorem hexVal_of_parseHex {s : Text} {v j : Nat} {c : Byte} (hs : parseHex s = some v)
    (hc : s.reverse[j]? = some c) : hexVal c = some (v / 16 ^ j % 16) := by
  induction s using List.reverseRecOn generalizing v j with
  | nil => cases hc
  | append_singleton s last ih =>
    rw [parseHex_snoc] at hs
    simp only [Option.bind_eq_some_iff, Option.map_eq_some_iff] at hs
    obtain ⟨u, hu, d, hd, rfl⟩ := hs
    have hlt : d < 16 := hexVal_lt hd
    rw [List.reverse_concat] at hc
    cases j with
    | zero =>
      cases hc
      have hmod : (16 * u + d) / 16 ^ 0 % 16 = d := by omega
      rw [hd, hmod]
    | succ j =>
      have hdiv : (16 * u + d) / 16 ^ (j + 1) = u / 16 ^ j := by
        have hu16 : (16 * u + d) / 16 = u := by omega
        rw [Nat.pow_succ', ← Nat.div_div_eq_div_mul, hu16]
      rw [hdiv]
      exact ih hu hc

theorem hexVal_of_getElem? {s : Text} {v i : Nat} {c : Byte} (hs : parseHex s = some v)
    (hc : s[i]? = some c) : hexVal c = some (v / 16 ^ (s.length - 1 - i) % 16) := by
  obtain ⟨hi, -⟩ := List.getElem?_eq_some_iff.1 hc
  refine hexVal_of_parseHex hs ?_
  have hback : s.length - 1 - (s.length - 1 - i) = i := by omega
  rw [List.getElem?_reverse (by omega), hback, hc]

/-- A digit of another value changes the value. -/
theorem hexVal_eq_of_parseHex_set {s : Text} {v i : Nat} {old new : Byte} (hs : parseHex s = some v)
    (hold : s[i]? = some old) (hset : parseHex (s.set i new) = some v) : hexVal new = hexVal old := by
  obtain ⟨hi, -⟩ := List.getElem?_eq_some_iff.1 hold
  rw [hexVal_of_getElem? hs hold, hexVal_of_getElem? hset (List.getElem?_set_self hi), List.length_set]

/-- R11: the character `0` is the only digit of value 0. -/
theorem eq_of_hexVal_zero {c : Byte} (h : hexVal c = some 0) : c = 0x30 := by
  have hhex : isHex c = true := by rw [isHex, h]; rfl
  have hnat : c.toNat = 0x30 := by
    rcases (isHex_iff c).1 hhex with hd | hu | hl
    · rw [hexVal_decimal hd] at h; injection h with h; omega
    · rw [hexVal_upper hu] at h; injection h with h; omega
    · rw [hexVal_lower hl] at h; injection h with h; omega
  exact BitVec.eq_of_toNat_eq hnat

/-- R84: a field of zeros is written in one way only, so that a change takes the value 0 from it. -/
theorem parseHex_set_ne_zero {s : Text} {i : Nat} {old new : Byte} (hs : parseHex s = some 0)
    (hold : s[i]? = some old) (hne : new ≠ old) : parseHex (s.set i new) ≠ some 0 := by
  intro hset
  have hzero : hexVal old = some 0 := by
    rw [hexVal_of_getElem? hs hold, Nat.zero_div]
  have hzero' : hexVal new = some 0 := (hexVal_eq_of_parseHex_set hs hold hset).trans hzero
  exact hne ((eq_of_hexVal_zero hzero').trans (eq_of_hexVal_zero hzero).symm)

/-! ## The two checksums and one changed character -/

/-- R73 (c). -/
theorem pktChk_set_ne {s : Text} {i : Nat} {old new : Byte} (hold : s[i]? = some old) (hne : new ≠ old) :
    pktChk (s.set i new) ≠ pktChk s := by
  obtain ⟨hi, rfl⟩ := List.getElem?_eq_some_iff.1 hold
  have hset := List.set_eq_take_cons_drop new hi
  have hself := List.set_eq_take_cons_drop s[i] hi
  rw [List.set_getElem_self] at hself
  rw [hset]
  conv_rhs => rw [hself]
  exact pktChk_change hne

/-- The digits of a four-digit field are the nibbles of its value, the first the highest. -/
theorem hexVal_eq_nibble {s : Text} {v j : Nat} {c : Byte} (hs : parseHex s = some v) (hlen : s.length = 4)
    (hj : j < 4) (hc : s[3 - j]? = some c) :
    hexVal c = some ((BitVec.ofNat 16 v).extractLsb' (4 * j) 4).toNat := by
  have hv : v < 65536 := by simpa [hlen] using parseHex_lt hs
  have hplace : s.length - 1 - (3 - j) = j := by omega
  have hpow : 2 ^ (4 * j) = 16 ^ j := by rw [Nat.pow_mul]
  rw [hexVal_of_getElem? hs hc, hplace, BitVec.extractLsb'_toNat, BitVec.toNat_ofNat,
    Nat.shiftRight_eq_div_pow, hpow, Nat.mod_eq_of_lt hv]

/-- R73 (e), for a value that passes the check of R85. -/
theorem nibbleSum_of_lenChk_eq {l : Nat} (h : (lenChk (BitVec.ofNat 12 l)).toNat = l) :
    nibbleSum (BitVec.ofNat 16 l) = 0 := by
  conv_lhs => rw [← h]
  rw [BitVec.ofNat_toNat, BitVec.setWidth_eq, nibbleSum_lenChk]

/-- R73 (e): a valid LEN field with one digit of another value is not valid. -/
theorem lenChk_ne_of_set {s : Text} {l l' i : Nat} {old new : Byte} (hlen : s.length = 4)
    (hl : parseHex s = some l) (hvalid : (lenChk (BitVec.ofNat 12 l)).toNat = l)
    (hold : s[i]? = some old) (hne : hexVal new ≠ hexVal old) (hl' : parseHex (s.set i new) = some l') :
    (lenChk (BitVec.ofNat 12 l')).toNat ≠ l' := by
  obtain ⟨hi, -⟩ := List.getElem?_eq_some_iff.1 hold
  have hlen' : (s.set i new).length = 4 := by rw [List.length_set, hlen]
  intro hvalid'
  refine nibbleSum_ne_of_one_nibble (v := BitVec.ofNat 16 l') (w := BitVec.ofNat 16 l) (k := 3 - i)
    (by omega) (fun j hj => ?_) ?_
  · by_cases hji : i = 3 - j
    · subst hji
      rw [hexVal_eq_nibble hl hlen hj hold,
        hexVal_eq_nibble hl' hlen' hj (List.getElem?_set_self hi)] at hne
      exact iff_of_false (fun heq => hne (by rw [heq])) (by omega)
    · have hkept : s[3 - j]? = some s[3 - j] := List.getElem?_eq_getElem (by omega)
      have hnib := hexVal_eq_nibble hl hlen hj hkept
      have hnib' := hexVal_eq_nibble hl' hlen' hj ((List.getElem?_set_ne hji).trans hkept)
      exact iff_of_true (BitVec.eq_of_toNat_eq (Option.some.inj (hnib'.symm.trans hnib))) (by omega)
  · rw [nibbleSum_of_lenChk_eq hvalid, nibbleSum_of_lenChk_eq hvalid']

/-! ## The checks on a changed body -/

section

variable {raw bad body : Text} {l i : Nat} {old new : Byte}

theorem MarkersPass.set (h : MarkersPass raw body) (hbad : HasBody bad (body.set i new)) (hi : 1 ≤ i) :
    MarkersPass bad (body.set i new) :=
  ⟨hbad, by rw [List.length_set]; exact h.long, by rw [List.getElem?_set_ne (by omega)]; exact h.marker⟩

theorem StatusPasses.set (h : StatusPasses raw body) (hbad : HasBody bad (body.set i new)) (hi : 1 ≤ i)
    (hout : i < 7 ∨ 9 ≤ i) : StatusPasses bad (body.set i new) :=
  ⟨h.toMarkersPass.set hbad hi, by rw [sub_set_outside _ _ hout]; exact h.status⟩

theorem LengthPasses.set (h : LengthPasses raw body l) (hbad : HasBody bad (body.set i new)) (hi : 1 ≤ i)
    (hout : i < 7 ∨ 13 ≤ i) : LengthPasses bad (body.set i new) l :=
  ⟨h.toStatusPasses.set hbad hi (by omega), by rw [sub_set_outside _ _ (by omega)]; exact h.lenField,
    h.lenValid⟩

/-- R83. -/
theorem MarkersPass.validate_set_marker (h : MarkersPass raw body) (hbad : HasBody bad (body.set i new))
    (hold : body[i]? = some old) (hne : new ≠ old) (hi : i = 0) :
    validate bad = .error ⟨.badMarker, 0⟩ := by
  subst hi
  have hlong := h.long
  refine validate_badMarker hbad (by rwa [List.length_set]) fun hfirst => hne ?_
  rw [List.getElem?_set_self (by omega)] at hfirst
  exact Option.some.inj (hfirst.trans (h.marker.symm.trans hold))

/-- R84. -/
theorem StatusPasses.validate_set_status_noDigit (h : StatusPasses raw body)
    (hbad : HasBody bad (body.set i new)) (hold : body[i]? = some old) (hi : 7 ≤ i) (hlt : i < 9)
    (hnew : hexVal new = none) : validate bad = .error ⟨.fieldDecodeError, 0⟩ := by
  refine (h.toMarkersPass.set hbad (by omega)).validate_statusField ?_
  rw [sub_set_inside _ _ _ hi]
  exact parseHex_set_of_noDigit (sub_getElem?_of_getElem? hold hi hlt) hnew

/-- R84: the code is the one that the two characters now spell. -/
theorem StatusPasses.validate_set_status_digit (h : StatusPasses raw body)
    (hbad : HasBody bad (body.set i new)) (hold : body[i]? = some old) (hne : new ≠ old) (hi : 7 ≤ i)
    (hlt : i < 9) (hnew : hexVal new ≠ none) :
    ∃ c : BitVec 8, c ≠ 0 ∧ parseHex (sub (body.set i new) 7 2) = some c.toNat ∧
      validate bad = .error ⟨.statusRejected, c⟩ := by
  have hlong := h.long
  have hset := sub_set_inside body 2 new hi
  obtain ⟨c, hc⟩ := parseHex_set_of_digit (i := i - 7) h.status hnew
  have hc0 : c ≠ 0 := by
    rintro rfl
    exact parseHex_set_ne_zero h.status (sub_getElem?_of_getElem? hold hi hlt) hne hc
  rw [← hset] at hc
  have hwidth : (sub (body.set i new) 7 2).length = 2 := by rw [sub_length, List.length_set]; omega
  have hc256 : c < 256 := by simpa [hwidth] using parseHex_lt hc
  have hnat : (BitVec.ofNat 8 c).toNat = c := by rw [BitVec.toNat_ofNat, Nat.mod_eq_of_lt hc256]
  exact ⟨BitVec.ofNat 8 c, fun heq => hc0 (by rw [← hnat, heq]; rfl), by rw [hnat, hc],
    (h.toMarkersPass.set hbad (by omega)).validate_statusRejected hc hc0⟩

/-- R90 (c): another digit in LEN, or none. -/
theorem LengthPasses.validate_set_len_digit (h : LengthPasses raw body l)
    (hbad : HasBody bad (body.set i new)) (hold : body[i]? = some old) (hi : 9 ≤ i) (hlt : i < 13)
    (hne : hexVal new ≠ hexVal old) : validate bad = .error ⟨.lengthChecksumMismatch, 0⟩ := by
  have hlong := h.long
  refine (h.toStatusPasses.set hbad (by omega) (.inr hi)).validate_lengthChecksum fun l' hl' => ?_
  rw [sub_set_inside _ _ _ hi] at hl'
  exact lenChk_ne_of_set (by rw [sub_length]; omega) h.lenField h.lenValid
    (sub_getElem?_of_getElem? hold hi hlt) hne hl'

/-- R86: with LEN as good as it was and CHK as it was, a change in what CHK covers is seen. -/
theorem PacketPasses.validate_set_covered (h : PacketPasses raw body l)
    (hlen : LengthPasses bad (body.set i new) l) (hold : body[i]? = some old) (hne : new ≠ old) (hi : 1 ≤ i)
    (hlt : i < body.length - 4) : validate bad = .error ⟨.packetChecksumMismatch, 0⟩ := by
  refine hlen.validate_packetChecksum fun heq => ?_
  rw [List.length_set, sub_set_outside _ _ (.inl hlt), h.chkField, sub_set_inside _ _ _ hi] at heq
  exact pktChk_set_ne (sub_getElem?_of_getElem? hold hi (by omega)) hne
    (BitVec.eq_of_toNat_eq (Option.some.inj heq)).symm

/-- R90 (c): letter case alone leaves LEN valid, and CHK sees it. -/
theorem PacketPasses.validate_set_len_case (h : PacketPasses raw body l)
    (hbad : HasBody bad (body.set i new)) (hold : body[i]? = some old) (hne : new ≠ old) (hi : 9 ≤ i)
    (hlt : i < 13) (hcase : hexVal new = hexVal old) :
    validate bad = .error ⟨.packetChecksumMismatch, 0⟩ := by
  have hlong := h.long
  refine h.validate_set_covered ⟨h.toStatusPasses.set hbad (by omega) (.inr hi), ?_, h.lenValid⟩ hold hne
    (by omega) (by omega)
  rw [sub_set_inside _ _ _ hi, parseHex_set_of_hexVal_eq (sub_getElem?_of_getElem? hold hi hlt) hcase,
    h.lenField]

/-- R86: what CHK covers does not reach into CHK. -/
theorem MarkersPass.sub_set_chk (h : MarkersPass raw body) (hi : body.length - 4 ≤ i) (new : Byte) :
    sub (body.set i new) 1 ((body.set i new).length - 5) = sub body 1 (body.length - 5) := by
  have hlong := h.long
  rw [List.length_set, sub_set_outside _ _ (.inr (by omega))]

/-- R90 (d): another digit in CHK, or none. -/
theorem PacketPasses.validate_set_chk_digit (h : PacketPasses raw body l)
    (hbad : HasBody bad (body.set i new)) (hold : body[i]? = some old) (hi : body.length - 4 ≤ i)
    (hne : hexVal new ≠ hexVal old) : validate bad = .error ⟨.packetChecksumMismatch, 0⟩ := by
  obtain ⟨hlt, -⟩ := List.getElem?_eq_some_iff.1 hold
  have hlong := h.long
  refine (h.toLengthPasses.set hbad (by omega) (by omega)).validate_packetChecksum fun heq => hne ?_
  rw [h.sub_set_chk hi, List.length_set, sub_set_inside _ _ _ hi] at heq
  exact hexVal_eq_of_parseHex_set h.chkField (sub_getElem?_of_getElem? hold hi (by omega)) heq

/-- R90 (d): letter case alone leaves CHK, and with it the frame, valid. -/
theorem PacketPasses.validate_set_chk_case (h : PacketPasses raw body l)
    (hcount : l % 4096 = body.length - 17) (hbad : HasBody bad (body.set i new))
    (hold : body[i]? = some old) (hi : body.length - 4 ≤ i) (hcase : hexVal new = hexVal old) :
    validate bad = .ok (sub body 13 (body.length - 17)) := by
  obtain ⟨hlt, -⟩ := List.getElem?_eq_some_iff.1 hold
  have hlong := h.long
  have hpass : PacketPasses bad (body.set i new) l := by
    refine ⟨h.toLengthPasses.set hbad (by omega) (by omega), ?_⟩
    rw [h.sub_set_chk hi, List.length_set, sub_set_inside _ _ _ hi,
      parseHex_set_of_hexVal_eq (sub_getElem?_of_getElem? hold hi (by omega)) hcase, h.chkField]
  have hok := hpass.validate_ok (by rwa [List.length_set])
  rwa [List.length_set, sub_set_outside _ _ (.inr (by omega))] at hok

/-! ## The checks on a shortened body -/

/-- The header is in every body of 17 characters. -/
theorem LengthPasses.take (h : LengthPasses raw body l) {m : Nat} (hbad : HasBody bad (body.take m))
    (hm : 17 ≤ m) (hle : m ≤ body.length) : LengthPasses bad (body.take m) l :=
  ⟨⟨⟨hbad, by rw [List.length_take]; omega,
        by rw [List.getElem?_take_of_lt (by omega)]; exact h.marker⟩,
      by rw [sub_take _ (by omega)]; exact h.status⟩,
    by rw [sub_take _ (by omega)]; exact h.lenField, h.lenValid⟩

/-- R90 (f): if the new last four characters happen to be the right checksum, then LEN claims more characters
than there are. -/
theorem PacketPasses.validate_take (h : PacketPasses raw body l) (hcount : l % 4096 = body.length - 17)
    {m : Nat} (hbad : HasBody bad (body.take m)) (hm : 17 ≤ m) (hlt : m < body.length) :
    validate bad = .error ⟨.packetChecksumMismatch, 0⟩ ∨
      validate bad = .error ⟨.lengthMismatch, 0⟩ := by
  have hlen := h.toLengthPasses.take hbad hm hlt.le
  by_cases hchk : parseHex (sub (body.take m) ((body.take m).length - 4) 4) =
      some (pktChk (sub (body.take m) 1 ((body.take m).length - 5))).toNat
  · have hpass : PacketPasses bad (body.take m) l := ⟨hlen, hchk⟩
    refine .inr (hpass.validate_lengthMismatch ?_)
    rw [List.length_take, hcount]
    omega
  · exact .inl (hlen.validate_packetChecksum hchk)

/-- R86: the last character of an accepted body is a digit of CHK, and no terminator. -/
theorem PacketPasses.getLast?_ne_eoi (h : PacketPasses raw body l) : body.getLast? ≠ some eoi := by
  have hlong := h.long
  intro hlast
  rw [List.getLast?_eq_getElem?] at hlast
  have hdigit := hexVal_of_getElem? h.chkField
    (sub_getElem?_of_getElem? (n := 4) hlast (by omega : body.length - 4 ≤ body.length - 1) (by omega))
  cases hdigit

/-- R90 (e): so the body alone, as a string of its own, loses nothing to step 0a. -/
theorem PacketPasses.without_terminator (h : PacketPasses raw body l) : PacketPasses body body l :=
  { h with hasBody := hasBody_exhausted h.getLast?_ne_eoi }

end

/-- R81: a leading part that ends in a terminator loses it. -/
theorem hasBody_take_succ {s : Text} {m : Nat} (h : s[m]? = some eoi) :
    HasBody (s.take (m + 1)) (s.take m) :=
  Or.inl (by rw [List.take_add_one, h]; rfl)

/-- R81: the body of a leading part is the part itself, or one character less where it ends in a
terminator. -/
theorem hasBody_take (s : Text) {n : Nat} (hn : n ≤ s.length) :
    HasBody (s.take n) (s.take n) ∨
      ∃ m, n = m + 1 ∧ s[m]? = some eoi ∧ HasBody (s.take n) (s.take m) := by
  cases n with
  | zero => exact .inl (hasBody_exhausted (by simp))
  | succ m =>
    by_cases hlast : s[m]? = some eoi
    · exact .inr ⟨m, rfl, hlast, hasBody_take_succ hlast⟩
    · refine .inl (hasBody_exhausted ?_)
      rwa [List.take_add_one, List.getElem?_eq_getElem hn, Option.toList_some, List.getLast?_concat,
        ← List.getElem?_eq_getElem hn]

/-- R81: a last character changed into a terminator is taken off. -/
theorem hasBody_set_eoi {body : Text} {i : Nat} (hi : i + 1 = body.length) :
    HasBody (body.set i eoi) (body.take i) := by
  have hlast : (body.set i eoi)[i]? = some eoi := List.getElem?_set_self (by omega)
  have hbody := hasBody_take_succ hlast
  rwa [List.take_of_length_le (by rw [List.length_set]; omega), List.take_set_of_le le_rfl] at hbody

end Sys2Proof.Machine

namespace Sys2Proof.Claims

open Sys2Proof Sys2Proof.Machine

/-- Settles O20: the accepted frame has passed every check; each clause is the first check that the changed
character reaches. A last character that becomes a terminator is a shortened body. -/
theorem oneCorruptCharacterIsRejected : Obligations.OneCorruptCharacterIsRejected := by
  intro raw body p i old new hb hok hold hne
  obtain ⟨l, hpass, hcount, rfl⟩ := packetPasses_of_validate_ok hb hok
  refine ⟨fun bad hbad => ⟨hpass.validate_set_marker hbad hold hne,
    hpass.validate_set_status_noDigit hbad hold, hpass.validate_set_status_digit hbad hold hne,
    hpass.validate_set_len_digit hbad hold, hpass.validate_set_len_case hbad hold hne,
    fun hi hout => hpass.validate_set_covered (hpass.toLengthPasses.set hbad hi hout) hold hne hi,
    hpass.validate_set_chk_digit hbad hold, hpass.validate_set_chk_case hcount hbad hold⟩, ?_⟩
  rintro hi rfl
  have hbody : HasBody (body.set i 0x0D) (body.take i) := hasBody_set_eoi hi
  exact ⟨fun hlen => validate_frameTooShort hbody (by rw [List.length_take]; omega),
    fun hlen => hpass.validate_take hcount hbody (by omega) (by omega)⟩

/-- Settles O21: the body passes every check without its terminator, and a leading part of it is judged by what
R81 leaves of it (`hasBody_take`). -/
theorem truncatedFrameIsRejected : Obligations.TruncatedFrameIsRejected := by
  intro body p hok
  obtain ⟨l, hpass, hcount, rfl⟩ := packetPasses_of_validate_ok (hasBody_terminated body) hok
  refine ⟨hpass.without_terminator.validate_ok hcount, fun n hn =>
    ⟨fun hshort => ?_, ?_, fun hlong hkeep => ?_⟩⟩
  · rcases hasBody_take body hn.le with hbody | ⟨m, rfl, -, hbody⟩
    · exact validate_frameTooShort hbody (by rw [List.length_take]; omega)
    · exact validate_frameTooShort hbody (by rw [List.length_take]; omega)
  · rintro rfl hlast
    exact validate_frameTooShort (hasBody_take_succ hlast) (by rw [List.length_take]; omega)
  · rcases hasBody_take body hn.le with hbody | ⟨m, rfl, hlast, hbody⟩
    · exact hpass.validate_take hcount hbody hlong hn
    · have hm : m ≠ 16 := by
        rintro rfl
        exact hkeep rfl hlast
      exact hpass.validate_take hcount hbody (by omega) (by omega)

end Sys2Proof.Claims
end

section
/-! PROOFS. What a field converts to (43_field_parser.md R94 to R101, R106). `TEXT` and `VER` read a field pair
by pair, and pair `k` of a field is its substring at `2 * k`. Stripping is `dropWhile` at the left end and
`rdropWhile` at the right. Joined pairs stand `2 + sep.length` apart: dropping that many characters drops the
first pair of the list (`drop_joinWith`). -/

namespace Sys2Proof.Machine

open Sys2Proof Sys2Proof.Claims

/-! ## Numbers -/

theorem parseHex_eq_none_iff (s : Text) : parseHex s = none ↔ s.all isHex = false := by
  rw [← Option.not_isSome_iff_eq_none, Bool.not_eq_true, parseHex_isSome]

theorem convertU_eq_some {d : Nat} {s : Text} {n : Scaled} (h : convertU d s = some n) :
    ∃ v : Nat, parseHex s = some v ∧ n = ⟨(v : Int), d⟩ := by
  unfold convertU at h
  cases hv : parseHex s with
  | none => simp [hv] at h
  | some v => simp only [hv, Option.some.injEq] at h; exact ⟨v, rfl, h.symm⟩

theorem convertS16_eq_some {d : Nat} {s : Text} {n : Scaled} (h : convertS16 d s = some n) :
    ∃ v : Nat, parseHex s = some v ∧ n = ⟨sext16 v, d⟩ := by
  unfold convertS16 at h
  cases hv : parseHex s with
  | none => simp [hv] at h
  | some v => simp only [hv, Option.some.injEq] at h; exact ⟨v, rfl, h.symm⟩

/-- R10, R106 (c): `sext16` of 16 bits is a signed number that is congruent to them. -/
theorem sext16_spec {v : Nat} (h : v < 65536) :
    -32768 ≤ sext16 v ∧ sext16 v ≤ 32767 ∧ sext16 v % 65536 = (v : Int) := by
  unfold sext16
  split <;> omega

/-! ## Pairs -/

/-- R98, R100: pair `k` is the substring of two characters at `2 * k`. -/
theorem pairsOf_getElem? : ∀ (s : Text) {k : Nat}, 2 * k + 1 < s.length →
    (pairsOf s)[k]? = some (sub s (2 * k) 2)
  | [], _, h => absurd h (by simp)
  | [_], _, h => absurd h (by simp)
  | _ :: _ :: _, 0, _ => rfl
  | _ :: _ :: s, k + 1, h => pairsOf_getElem? s (by simp only [List.length_cons] at h; omega)

theorem pairsOf_getElem {s : Text} {k : Nat} (h : k < (pairsOf s).length) :
    (pairsOf s)[k] = sub s (2 * k) 2 := by
  have hin : 2 * k + 1 < s.length := by rw [pairsOf_length] at h; omega
  exact Option.some.inj ((List.getElem?_eq_getElem h).symm.trans (pairsOf_getElem? s hin))

theorem mem_pairsOf {s pr : Text} :
    pr ∈ pairsOf s ↔ ∃ k, 2 * k + 1 < s.length ∧ pr = sub s (2 * k) 2 := by
  constructor
  · intro h
    obtain ⟨k, hk, rfl⟩ := List.getElem_of_mem h
    exact ⟨k, by rw [pairsOf_length] at hk; omega, pairsOf_getElem hk⟩
  · rintro ⟨k, hin, rfl⟩
    exact List.mem_of_getElem? (pairsOf_getElem? s hin)

theorem length_of_mem_pairsOf {s pr : Text} (h : pr ∈ pairsOf s) : pr.length = 2 := by
  obtain ⟨k, hin, rfl⟩ := mem_pairsOf.1 h
  rw [sub_length]
  omega

/-! ## The bytes of a `TEXT` field -/

theorem textBytes_eq_mapM (s : Text) :
    textBytes s = (pairsOf s).mapM (fun pr => (parseHex pr).map (BitVec.ofNat 8)) := by
  unfold textBytes
  congr 1
  funext pr
  cases parseHex pr with
  | none => rfl
  | some v => rfl

/-- R98: two digits fit a byte, so the byte of a pair is the value of the pair. -/
theorem byte_eq_some_iff {pr : Text} (hlen : pr.length = 2) (b : Byte) :
    (parseHex pr).map (BitVec.ofNat 8) = some b ↔ parseHex pr = some b.toNat := by
  cases hv : parseHex pr with
  | none => simp
  | some v =>
    have hlt : v < 256 := by
      have := parseHex_lt hv
      rwa [hlen] at this
    rw [Option.map_some, Option.some.injEq, Option.some.injEq, ← BitVec.toNat_inj, BitVec.toNat_ofNat,
      Nat.mod_eq_of_lt hlt]

/-- R98: the bytes are the values of the pairs, in order. -/
theorem textBytes_eq_some_iff (s bs : Text) : textBytes s = some bs ↔ s.length / 2 = bs.length ∧
    ∀ (k : Nat) (b : Byte), bs[k]? = some b → parseHex (sub s (2 * k) 2) = some b.toNat := by
  have hbyte : ∀ {k : Nat} (hk : k < (pairsOf s).length) (b : Byte),
      (parseHex (pairsOf s)[k]).map (BitVec.ofNat 8) = some b ↔
        parseHex (sub s (2 * k) 2) = some b.toNat := fun {k} hk b => by
    rw [byte_eq_some_iff (length_of_mem_pairsOf (List.getElem_mem hk)), pairsOf_getElem]
  rw [textBytes_eq_mapM, mapM_some_iff, List.forall₂_iff_get, ← pairsOf_length]
  refine and_congr_right fun hlen => ⟨fun h k b hb => ?_, fun h k hk hk' => ?_⟩
  · obtain ⟨hk, rfl⟩ := List.getElem?_eq_some_iff.1 hb
    exact (hbyte (hlen ▸ hk) _).1 (h k (hlen ▸ hk) hk)
  · exact (hbyte hk _).2 (h k _ (List.getElem?_eq_getElem hk'))

theorem convertText_eq_some {s t : Text} (h : convertText s = some t) :
    ∃ bs, textBytes s = some bs ∧ t = stripText bs := by
  unfold convertText at h
  cases hbs : textBytes s with
  | none => simp [hbs] at h
  | some bs => simp only [hbs, Option.some.injEq] at h; exact ⟨bs, rfl, h.symm⟩

theorem convertText_eq_none_iff (s : Text) : convertText s = none ↔ textBytes s = none := by
  unfold convertText
  cases textBytes s with
  | none => simp
  | some bs => simp

/-- R98, R105: a field of even length fails exactly when one of its pairs has no value. -/
theorem textBytes_eq_none_iff {s : Text} (heven : s.length % 2 = 0) :
    textBytes s = none ↔ ∃ k, 2 * k < s.length ∧ parseHex (sub s (2 * k) 2) = none := by
  calc textBytes s = none ↔ (pairsOf s).flatten.all isHex = false := by
        rw [← Option.not_isSome_iff_eq_none, Bool.not_eq_true, textBytes_isSome heven,
          pairsOf_flatten s heven]
    _ ↔ ∃ pr ∈ pairsOf s, parseHex pr = none := by
        simp only [List.all_flatten, List.all_eq_false, parseHex_eq_none_iff, Bool.not_eq_true]
    _ ↔ ∃ k, 2 * k < s.length ∧ parseHex (sub s (2 * k) 2) = none := by
        constructor
        · rintro ⟨pr, hpr, hnone⟩
          obtain ⟨k, hk, rfl⟩ := mem_pairsOf.1 hpr
          exact ⟨k, by omega, hnone⟩
        · rintro ⟨k, hk, hnone⟩
          exact ⟨_, mem_pairsOf.2 ⟨k, by omega, rfl⟩, hnone⟩

/-! ## Stripping -/

/-- R7, R99: the six whitespace bytes. -/
theorem isWs_iff (b : Byte) : isWs b = true ↔
    b = 0x09 ∨ b = 0x0A ∨ b = 0x0B ∨ b = 0x0C ∨ b = 0x0D ∨ b = 0x20 := by
  simp [isWs, wsBytes]

theorem isWs_eq_false_iff (b : Byte) : isWs b = false ↔ b ∉ wsBytes := by
  rw [← Bool.not_eq_true, isWs, List.contains_iff_mem]

theorem stripText_eq_rdropWhile (bs : Text) :
    stripText bs = ((bs.filter (fun b => decide (b ≠ 0))).dropWhile isWs).rdropWhile isWs := rfl

/-- R99: what stripping takes away are NULs, and whitespace at the two ends. -/
theorem filter_eq_append_stripText (bs : Text) : ∃ pre post : Text,
    bs.filter (fun b => decide (b ≠ 0)) = pre ++ stripText bs ++ post ∧
      ∀ b, b ∈ pre ∨ b ∈ post → isWs b = true := by
  refine ⟨(bs.filter (fun b => decide (b ≠ 0))).takeWhile isWs,
    ((bs.filter (fun b => decide (b ≠ 0))).dropWhile isWs).rtakeWhile isWs, ?_, ?_⟩
  · rw [stripText_eq_rdropWhile, List.append_assoc, List.rdropWhile_append_rtakeWhile,
      List.takeWhile_append_dropWhile]
  · rintro b (hb | hb)
    · exact List.mem_takeWhile_imp hb
    · exact List.mem_rtakeWhile_imp hb

theorem isWs_eq_false_of_head?_dropWhile {s : Text} {b : Byte} (h : (s.dropWhile isWs).head? = some b) :
    isWs b = false := by
  have hnot := List.head?_dropWhile_not isWs s
  rwa [h] at hnot

theorem isWs_eq_false_of_head?_stripText {bs : Text} {b : Byte} (h : (stripText bs).head? = some b) :
    isWs b = false := by
  rw [stripText_eq_rdropWhile] at h
  obtain ⟨post, hpost⟩ := List.rdropWhile_prefix isWs
    (l := (bs.filter (fun b => decide (b ≠ 0))).dropWhile isWs)
  refine isWs_eq_false_of_head?_dropWhile (s := bs.filter (fun b => decide (b ≠ 0))) ?_
  rw [← hpost, List.head?_append, h, Option.some_or]

theorem isWs_eq_false_of_getLast?_stripText {bs : Text} {b : Byte} (h : (stripText bs).getLast? = some b) :
    isWs b = false := by
  rw [stripText, List.getLast?_reverse] at h
  exact isWs_eq_false_of_head?_dropWhile h

theorem stripText_sublist (bs : Text) :
    (stripText bs).Sublist (bs.filter (fun b => decide (b ≠ 0))) := by
  obtain ⟨pre, post, heq, -⟩ := filter_eq_append_stripText bs
  rw [heq, List.append_assoc]
  exact (List.sublist_append_left _ _).trans (List.sublist_append_right _ _)

theorem zero_not_mem_stripText (bs : Text) : (0 : Byte) ∉ stripText bs := fun h => by
  simpa using (stripText_sublist bs).subset h

theorem stripText_length_le (bs : Text) : (stripText bs).length ≤ bs.length :=
  (stripText_sublist bs).length_le.trans (List.length_filter_le _ _)

/-! ## Joining -/

theorem joinWith_cons {sep x : Text} {xs : List Text} (h : xs ≠ []) :
    joinWith sep (x :: xs) = x ++ sep ++ joinWith sep xs := by
  cases xs with
  | nil => exact absurd rfl h
  | cons y xs => rfl

/-- R101: joined pairs begin with the first pair. -/
theorem take_joinWith {sep x : Text} (xs : List Text) (hx : x.length = 2) :
    (joinWith sep (x :: xs)).take 2 = x := by
  cases xs with
  | nil => exact List.take_of_length_le hx.le
  | cons y ys => rw [joinWith_cons (by simp), List.append_assoc, List.take_left' hx]

theorem joinWith_length {sep : Text} {prs : List Text} (hprs : ∀ pr ∈ prs, pr.length = 2) :
    (joinWith sep prs).length = 2 * prs.length + sep.length * (prs.length - 1) := by
  induction prs with
  | nil => rfl
  | cons x xs ih =>
    obtain ⟨hx, hxs⟩ := List.forall_mem_cons.1 hprs
    cases xs with
    | nil => simp [joinWith, hx]
    | cons y ys =>
      rw [joinWith_cons (by simp), List.length_append, List.length_append, ih hxs, hx]
      simp only [List.length_cons, Nat.add_sub_cancel]
      ring

/-- R101: one pair and one separator further on, the rest of the list stands joined. -/
theorem drop_joinWith {sep : Text} {prs : List Text} (hprs : ∀ pr ∈ prs, pr.length = 2) {k : Nat}
    (hk : k < prs.length) :
    (joinWith sep prs).drop (k * (2 + sep.length)) = joinWith sep (prs.drop k) := by
  induction k generalizing prs with
  | zero => simp
  | succ k ih =>
    cases prs with
    | nil => simp at hk
    | cons x xs =>
      obtain ⟨hx, hxs⟩ := List.forall_mem_cons.1 hprs
      have hk : k < xs.length := by simpa using hk
      have hfirst : (x ++ sep).length = 2 + sep.length := by rw [List.length_append, hx]
      rw [joinWith_cons (List.ne_nil_of_length_pos (by omega)), Nat.succ_mul, Nat.add_comm,
        ← List.drop_drop, List.drop_left' hfirst, List.drop_succ_cons, ih hxs hk]

/-- R101: where pair `k` of a list of pairs stands when they are joined. -/
theorem sub_joinWith_pair {sep pr : Text} {prs : List Text} (hprs : ∀ x ∈ prs, x.length = 2) {k : Nat}
    (hk : prs[k]? = some pr) : sub (joinWith sep prs) (k * (2 + sep.length)) 2 = pr := by
  obtain ⟨hlt, hget⟩ := List.getElem?_eq_some_iff.1 hk
  rw [sub, drop_joinWith hprs hlt, List.drop_eq_getElem_cons hlt, hget,
    take_joinWith _ (hprs pr (List.mem_of_getElem? hk))]

/-- R101: every pair but the last is followed by the separator. -/
theorem sub_joinWith_sep {sep : Text} {prs : List Text} (hprs : ∀ x ∈ prs, x.length = 2) {k : Nat}
    (hk : k + 1 < prs.length) :
    sub (joinWith sep prs) (k * (2 + sep.length) + 2) sep.length = sep := by
  have hlt : k < prs.length := by omega
  have hpr : prs[k].length = 2 := hprs _ (List.getElem_mem hlt)
  rw [sub, ← List.drop_drop, drop_joinWith hprs hlt, List.drop_eq_getElem_cons hlt,
    joinWith_cons (List.ne_nil_of_length_pos (by rw [List.length_drop]; omega)), List.append_assoc,
    List.drop_left' hpr, List.take_left' rfl]

/-! ## `VER` fields -/

theorem convertVer_eq_some {sep s t : Text} (h : convertVer sep s = some t) :
    t = joinWith sep (pairsOf s) := by
  rw [convertVer, Option.ite_none_right_eq_some] at h
  obtain ⟨-, heq⟩ := h
  exact (Option.some.inj heq).symm

theorem convertVer_eq_none_iff (sep s : Text) : convertVer sep s = none ↔ ∃ c ∈ s, isHex c = false := by
  simp [convertVer]

theorem joinWith_pairsOf_length (sep s : Text) :
    (joinWith sep (pairsOf s)).length = 2 * (s.length / 2) + sep.length * (s.length / 2 - 1) := by
  rw [joinWith_length fun _ => length_of_mem_pairsOf, pairsOf_length]

end Sys2Proof.Machine

namespace Sys2Proof.Claims

open Sys2Proof Sys2Proof.Machine

/-- Settles O46: the pairs are the substrings at the even positions, and `stripText` cuts the bytes into a
leading part, the result and a trailing part. -/
theorem textFieldContents : Obligations.TextFieldContents := by
  refine ⟨fun s bs heven => ?_, fun s heven => ?_, fun s t _ ht => ?_⟩
  · have hcount : s.length / 2 = bs.length ↔ 2 * bs.length = s.length := by omega
    rw [textBytes_eq_some_iff, hcount]
  · rw [convertText_eq_none_iff, textBytes_eq_none_iff heven]
  · obtain ⟨bs, hbs, rfl⟩ := convertText_eq_some ht
    obtain ⟨pre, post, heq, hws⟩ := filter_eq_append_stripText bs
    refine ⟨bs, pre, post, hbs, rfl, heq, fun b hb => (isWs_iff b).1 (hws b hb), fun b hb => ?_⟩
    have hend : isWs b = false := hb.elim isWs_eq_false_of_head?_stripText
      isWs_eq_false_of_getLast?_stripText
    simpa only [ne_eq, isWs_iff, not_or] using Bool.eq_false_iff.1 hend

/-- Settles O47: `drop_joinWith` brings pair `k` to the front of the joined list. -/
theorem versionFieldContents : Obligations.VersionFieldContents := by
  intro sep s n _ hlen
  have hcount : s.length / 2 = n := by omega
  refine ⟨convertVer_eq_none_iff sep s, fun t => convertVer_eq_some, ?_, fun k hk => ?_, fun k hk => ?_⟩
  · rw [joinWith_pairsOf_length, hcount]
  · exact sub_joinWith_pair (fun _ => length_of_mem_pairsOf) (pairsOf_getElem? s (by omega))
  · exact sub_joinWith_sep (fun _ => length_of_mem_pairsOf) (by rw [pairsOf_length]; omega)

/-- Settles O25, kind by kind. -/
theorem conversionLaws : Obligations.ConversionLaws := by
  refine ⟨fun d s n h => ?_, fun d s n hlen h => ?_, fun s t h => ?_, fun c s t _ hlen h => ?_⟩
  · obtain ⟨v, hv, rfl⟩ := convertU_eq_some h
    exact ⟨Int.natCast_nonneg v, Int.ofNat_lt.2 (parseHex_lt hv), rfl⟩
  · obtain ⟨v, hv, rfl⟩ := convertS16_eq_some h
    have hlt := parseHex_lt hv
    rw [hlen] at hlt
    obtain ⟨hlow, hhigh, hmod⟩ := sext16_spec hlt
    exact ⟨hlow, hhigh, rfl, v, hv, hmod⟩
  · obtain ⟨bs, hbs, rfl⟩ := convertText_eq_some h
    obtain ⟨hcount, -⟩ := (textBytes_eq_some_iff s bs).1 hbs
    have hle := stripText_length_le bs
    exact ⟨hcount ▸ hle, zero_not_mem_stripText bs,
      fun b hb => (isWs_eq_false_iff b).1 (isWs_eq_false_of_head?_stripText hb),
      fun b hb => (isWs_eq_false_iff b).1 (isWs_eq_false_of_getLast?_stripText hb)⟩
  · rw [convertVer_eq_some h, joinWith_pairsOf_length, List.length_singleton]
    omega

end Sys2Proof.Claims
end

section
/-! PROOFS. A decoder that rejects its payload (43_field_parser.md R104, R105). `decodeLayout` tests the length
first, and then fails exactly when a field or a cell fails. What it answers is what each of the four decoders
stops with. -/

namespace Sys2Proof.Machine

open Sys2Proof Sys2Proof.Claims

/-! ## The needed length -/

/-- R103: without a repeat group the needed length is the minimum length. -/
theorem neededLength_of_noGroup {y : Layout} (h : y.rep = none) (m k : Nat) : neededLength y m k = m := by
  rw [neededLength, h]

/-- R103: with a repeat group the needed length covers the counted elements too. -/
theorem neededLength_of_group {y : Layout} {g : RepGroup} (h : y.rep = some g) (m k : Nat) :
    neededLength y m k = max m (y.skip + g.base + k * g.width) := by
  rw [neededLength, h]

theorem Config.sys_noGroup (c : Config) : c.params.layoutSys.rep = none := by
  have h := (Config.sys_wf c).2
  simp only [Layout.sysOk, Bool.and_eq_true, decide_eq_true_eq] at h
  obtain ⟨⟨⟨-, hrep⟩, -⟩, -⟩ := h
  exact hrep

theorem Config.mfr_noGroup (c : Config) : c.params.layoutMfr.rep = none := by
  have h := (Config.mfr_wf c).2
  simp only [Layout.mfrOk, Bool.and_eq_true, decide_eq_true_eq] at h
  obtain ⟨⟨⟨⟨⟨⟨-, hrep⟩, -⟩, -⟩, -⟩, -⟩, -⟩ := h
  exact hrep

theorem Config.cap_noGroup (c : Config) : c.params.layoutCap.rep = none := by
  have h := (Config.cap_wf c).2
  simp only [Layout.capOk, Bool.and_eq_true, decide_eq_true_eq] at h
  obtain ⟨⟨-, hrep⟩, -⟩ := h
  exact hrep

/-! ## A field that fails -/

/-- R105: one character that is no digit, in one field, leaves no field list. -/
theorem convertFields_eq_none {sep p : Text} {y : Layout} {m : Nat} (hy : y.wf m = true)
    (hlen : m ≤ p.length) {f : FieldDesc} (hf : f ∈ y.fields)
    (hbad : (fieldAt p y f).all isHex = false) : convertFields sep p y = none := by
  obtain ⟨-, -, hfields, -⟩ := Layout.wf_facts hy
  obtain ⟨hwidth, -, hin⟩ := hfields f hf
  have hfail : (convert sep f (fieldAt p y f)).isSome = false :=
    (convert_isSome hwidth (fieldAt_length (by omega))).trans hbad
  rw [← Option.not_isSome_iff_eq_none, Bool.not_eq_true, convertFields, mapM_isSome, List.all_eq_false]
  exact ⟨f, hf, by simp [Option.isSome_map, hfail]⟩

/-- R105: the same for one element of the repeat group. -/
theorem convertCells_eq_none {p : Text} {y : Layout} {g : RepGroup} (hg : y.rep = some g) {i k : Nat}
    (hi : i < k) (hbad : (elementAt p y g i).all isHex = false) : convertCells p y k = none := by
  rw [← Option.not_isSome_iff_eq_none, Bool.not_eq_true, convertCells, hg]
  simp only [mapM_isSome, convertU_isSome, List.all_eq_false]
  exact ⟨i, List.mem_range.2 hi, by simp [hbad]⟩

/-- R105: past the length check, one failed conversion fails the whole layout. -/
theorem decodeLayout_fieldDecodeError {sep p : Text} {y : Layout} {m k : Nat}
    (hlen : neededLength y m k ≤ p.length)
    (hnone : convertFields sep p y = none ∨ convertCells p y k = none) :
    decodeLayout sep p y m k = .error .fieldDecodeError := by
  rw [decodeLayout, if_neg (Nat.not_lt.2 hlen)]
  rcases hnone with hnone | hnone
  · rw [hnone]
  · rw [hnone]
    cases convertFields sep p y with
    | none => rfl
    | some v => rfl

/-- R105, for a layout without a repeat group. -/
theorem decodeLayout_badField {sep p : Text} {y : Layout} {m : Nat} (hy : y.wf m = true)
    (hrep : y.rep = none) (hlen : m ≤ p.length)
    (hbad : ∃ f ∈ y.fields, (charsOf p y f).all isHex = false) :
    decodeLayout sep p y m 0 = .error .fieldDecodeError := by
  obtain ⟨f, hf, hchars⟩ := hbad
  have hneeded : neededLength y m 0 ≤ p.length := by rwa [neededLength_of_noGroup hrep]
  exact decodeLayout_fieldDecodeError hneeded (.inl (convertFields_eq_none hy hlen hf hchars))

/-! ## The four decoders on a payload in `IN` -/

/-- R117: under the cell-count contract DECODE_RT goes on to its payload. -/
theorem cellCountProblem_of_legal {o : Operands} (hknown : o.cellsKnown = true)
    (hcells : o.cells.toNat ≤ 16) : cellCountProblem o = none := by
  have hfew : ¬ maxCells < o.cells.toNat := Nat.not_lt.2 hcells
  rw [cellCountProblem, if_neg (by simp [hknown]), if_neg hfew]

section

variable {s : State} {p : Text} {c : Cause}

theorem exec_decodeSys_of_error (hin : InHolds s p) (h : decodeSysLayout s.cfg p = .error c) :
    exec .decodeSys s = .next (s.stop (decodeStop 0x5 c)) := by
  refine (State.onIn_of_inHolds hin _).trans ?_
  rw [h]

theorem exec_decodeMfr_of_error (hin : InHolds s p) (h : decodeMfrLayout s.cfg p = .error c) :
    exec .decodeMfr s = .next (s.stop (decodeStop 0x6 c)) := by
  refine (State.onIn_of_inHolds hin _).trans ?_
  rw [h]

theorem exec_decodeCap_of_error (hin : InHolds s p) (h : decodeCapLayout s.cfg p = .error c) :
    exec .decodeCap s = .next (s.stop (decodeStop 0x7 c)) := by
  refine (State.onIn_of_inHolds hin _).trans ?_
  rw [h]

theorem exec_decodeRt_of_error (hin : InHolds s p) (hcells : cellCountProblem s.operands = none)
    (h : decodeRtLayout s.cfg p s.operands.cells.toNat = .error c) :
    exec .decodeRt s = .next (s.stop (decodeStop 0x8 c)) := by
  change execDecodeRt s = _
  rw [execDecodeRt, hcells, State.onIn_of_inHolds hin, h]

end

/-- R131: `PayloadTooShort` reports the `OP` code of the decoder. -/
theorem State.stop_payloadTooShort (s : State) (op : BitVec 8) :
    EndsStopped s (s.stop (decodeStop op .payloadTooShort)) 0x47 op := s.stop_endsStopped _

/-- R131: `FieldDecodeError` reports nothing further. -/
theorem State.stop_fieldDecodeError (s : State) (op : BitVec 8) :
    EndsStopped s (s.stop (decodeStop op .fieldDecodeError)) 0x48 0 := s.stop_endsStopped _

end Sys2Proof.Machine

namespace Sys2Proof.Claims

open Sys2Proof Sys2Proof.Machine

/-- Settles O22: a payload below the minimum length, or below the end of the counted cells, is below the needed
length, which `decodeLayout` tests first. -/
theorem payloadTooShortIsReported : Obligations.PayloadTooShortIsReported := by
  intro s p hin
  have short : ∀ {y : Layout} {m k : Nat}, p.length < m →
      decodeLayout s.cfg.params.fwSep p y m k = .error .payloadTooShort := fun hlen =>
    decodeLayout_tooShort (Nat.lt_of_lt_of_le hlen (minLen_le_needed _ _ _))
  refine ⟨fun hlen => ⟨_, exec_decodeSys_of_error hin (short hlen), s.stop_payloadTooShort 5⟩,
    fun hlen => ⟨_, exec_decodeMfr_of_error hin (short hlen), s.stop_payloadTooShort 6⟩,
    fun hlen => ⟨_, exec_decodeCap_of_error hin (short hlen), s.stop_payloadTooShort 7⟩,
    fun g hg hknown hcells hlen => ?_⟩
  have hneeded : p.length <
      neededLength s.cfg.params.layoutRt s.cfg.params.minLenRt s.operands.cells.toNat := by
    rw [neededLength_of_group hg]
    exact lt_max_iff.2 hlen
  exact ⟨_, exec_decodeRt_of_error hin (cellCountProblem_of_legal hknown hcells)
    (decodeLayout_tooShort hneeded), s.stop_payloadTooShort 8⟩

/-- Settles O23: past the length check a field or a cell with a character that is no digit has no value, and
then the layout has none. -/
theorem fieldDecodeErrorLeavesNoResult : Obligations.FieldDecodeErrorLeavesNoResult := by
  intro s p hin
  refine ⟨fun hlen hbad => ⟨_, exec_decodeSys_of_error hin
      (decodeLayout_badField (Config.sys_wf _).1 (Config.sys_noGroup _) hlen hbad),
      s.stop_fieldDecodeError 5⟩,
    fun hlen hbad => ⟨_, exec_decodeMfr_of_error hin
      (decodeLayout_badField (Config.mfr_wf _).1 (Config.mfr_noGroup _) hlen hbad),
      s.stop_fieldDecodeError 6⟩,
    fun hlen hbad => ⟨_, exec_decodeCap_of_error hin
      (decodeLayout_badField (Config.cap_wf _).1 (Config.cap_noGroup _) hlen hbad),
      s.stop_fieldDecodeError 7⟩,
    fun g hg hknown hcells hmin hend hbad => ?_⟩
  have hneeded : neededLength s.cfg.params.layoutRt s.cfg.params.minLenRt s.operands.cells.toNat ≤
      p.length := by
    rw [neededLength_of_group hg]
    exact max_le hmin hend
  have hnone : convertFields s.cfg.params.fwSep p s.cfg.params.layoutRt = none ∨
      convertCells p s.cfg.params.layoutRt s.operands.cells.toNat = none := by
    rcases hbad with ⟨f, hf, hchars⟩ | ⟨i, hi, hchars⟩
    · exact .inl (convertFields_eq_none (Config.rt_wf _).1 hmin hf hchars)
    · exact .inr (convertCells_eq_none hg hi hchars)
  exact ⟨_, exec_decodeRt_of_error hin (cellCountProblem_of_legal hknown hcells)
    (decodeLayout_fieldDecodeError hneeded hnone), s.stop_fieldDecodeError 8⟩

end Sys2Proof.Claims
end

section
/-! PROOFS. A decoder that completes (44_telemetry_decoders.md). A payload that is long enough and has digits
in every field decodes (R103), and the files of a decoded payload follow its layout (R94, R95, R99, R101). The
four operations differ only in what they make of the decoded values: `T` and `S` as they are, the identity
cache, or the input of the mapper stage. -/

namespace Sys2Proof.Machine

open Sys2Proof Sys2Proof.Claims

/-! ## A payload that decodes -/

/-- R103: past the length check, fields and cells that convert are what the layout decodes to. -/
theorem decodeLayout_eq_ok {sep p : Text} {y : Layout} {m k : Nat} {vs : List (FieldName × Value)}
    {cells : List Scaled} (hlen : neededLength y m k ≤ p.length) (hv : convertFields sep p y = some vs)
    (hc : convertCells p y k = some cells) : decodeLayout sep p y m k = .ok ⟨vs, cells⟩ := by
  rw [decodeLayout, if_neg (Nat.not_lt.2 hlen), hv, hc]

/-- R94 to R101: fields of digits convert, whatever their kinds. -/
theorem convertFields_of_decodable {sep p : Text} {y : Layout} {m : Nat} (hy : y.wf m = true)
    (h : Decodable p y m) : ∃ vs, convertFields sep p y = some vs := by
  obtain ⟨hlen, hdigits⟩ := h
  obtain ⟨-, -, hfields, -⟩ := Layout.wf_facts hy
  rw [← Option.isSome_iff_exists, convertFields, mapM_isSome, List.all_eq_true]
  intro f hf
  obtain ⟨hwidth, -, hin⟩ := hfields f hf
  rw [Option.isSome_map, convert_isSome hwidth (fieldAt_length (by omega))]
  exact hdigits f hf

/-- R102: elements of digits convert. -/
theorem convertCells_of_digits {p : Text} {y : Layout} {g : RepGroup} {k : Nat} (hg : y.rep = some g)
    (hdigits : ∀ i, i < k → (elementAt p y g i).all isHex = true) :
    ∃ cells, convertCells p y k = some cells := by
  rw [← Option.isSome_iff_exists, convertCells, hg]
  simp only [mapM_isSome, convertU_isSome, List.all_eq_true, List.mem_range]
  exact fun i hi => List.all_eq_true.1 (hdigits i hi)

/-- R103, for a layout without a repeat group. -/
theorem decodeLayout_of_decodable {sep p : Text} {y : Layout} {m : Nat} (hy : y.wf m = true)
    (hrep : y.rep = none) (h : Decodable p y m) : ∃ d, decodeLayout sep p y m 0 = .ok d := by
  obtain ⟨vs, hvs⟩ := convertFields_of_decodable (sep := sep) hy h
  obtain ⟨hlen, -⟩ := h
  have hneeded : neededLength y m 0 ≤ p.length := by rwa [neededLength_of_noGroup hrep]
  have hnone : convertCells p y 0 = some [] := by rw [convertCells, hrep]
  exact ⟨_, decodeLayout_eq_ok hneeded hvs hnone⟩

/-- R103, for a layout with a repeat group: the counted elements must be there and have digits too. -/
theorem decodeLayout_of_decodable_group {sep p : Text} {y : Layout} {g : RepGroup} {m k : Nat}
    (hy : y.wf m = true) (hg : y.rep = some g) (h : Decodable p y m)
    (hend : y.skip + g.base + k * g.width ≤ p.length)
    (hdigits : ∀ i, i < k → (elementAt p y g i).all isHex = true) :
    ∃ d, decodeLayout sep p y m k = .ok d := by
  obtain ⟨vs, hvs⟩ := convertFields_of_decodable (sep := sep) hy h
  obtain ⟨cells, hcells⟩ := convertCells_of_digits hg hdigits
  obtain ⟨hlen, -⟩ := h
  have hneeded : neededLength y m k ≤ p.length := by
    rw [neededLength_of_group hg]
    exact max_le hlen hend
  exact ⟨_, decodeLayout_eq_ok hneeded hvs hcells⟩

/-! ## What a field of each kind converts to -/

theorem convert_s16 {sep : Text} {f : FieldDesc} {s : Text} (hk : f.kind = .s16) {v : Value}
    (h : convert sep f s = some v) :
    ∃ x, parseHex s = some x ∧ v = .num ⟨sext16 x, f.div⟩ := by
  simp only [convert, hk, Option.map_eq_some_iff] at h
  obtain ⟨n, hn, rfl⟩ := h
  obtain ⟨x, hx, rfl⟩ := convertS16_eq_some hn
  exact ⟨x, hx, rfl⟩

theorem convert_text {sep : Text} {f : FieldDesc} {s t : Text} (hk : f.kind = .text)
    (h : convert sep f s = some (.text t)) : ∃ bs, textBytes s = some bs ∧ t = stripText bs := by
  simp only [convert, hk, Option.map_eq_some_iff, Value.text.injEq, exists_eq_right] at h
  exact convertText_eq_some h

theorem convert_ver {sep : Text} {f : FieldDesc} {s t : Text} (hk : f.kind = .ver)
    (h : convert sep f s = some (.text t)) : t = joinWith sep (pairsOf s) := by
  simp only [convert, hk, Option.map_eq_some_iff, Value.text.injEq, exists_eq_right] at h
  exact convertVer_eq_some h

/-! ## The files of a decoded payload -/

/-- R105: of a payload that decodes, no field failed. -/
theorem decoded_convert {sep p : Text} {y : Layout} {m k : Nat} {d : Decoded}
    (h : decodeLayout sep p y m k = .ok d) {f : FieldDesc} (hf : f ∈ y.fields) :
    ∃ v, convert sep f (fieldAt p y f) = some v := by
  obtain ⟨-, hv, -⟩ := decodeLayout_ok h
  obtain ⟨nv, -, -, hconv⟩ := forall₂_exists_left (convertFields_forall₂ hv).flip hf
  exact ⟨nv.2, hconv⟩

/-- In a decoded payload, the entry of an `S16` field. -/
theorem decoded_lookup_s16 {sep p : Text} {y : Layout} {m k : Nat} {d : Decoded} (hy : y.wf m = true)
    (h : decodeLayout sep p y m k = .ok d) {f : FieldDesc} (hf : f ∈ y.fields) (hk : f.kind = .s16) :
    ∃ x, parseHex (fieldAt p y f) = some x ∧
      (numEntries d.values).lookup f.name = some ⟨sext16 x, f.div⟩ := by
  obtain ⟨-, hv, -⟩ := decodeLayout_ok h
  obtain ⟨hnames, -, -, -⟩ := Layout.wf_facts hy
  obtain ⟨v, hconv⟩ := decoded_convert h hf
  obtain ⟨x, hx, rfl⟩ := convert_s16 hk hconv
  exact ⟨x, hx, lookup_numEntries (convertFields_forall₂ hv) hnames hf hconv⟩

/-- R94, R95, R98 to R101: results whose files are those of a decoded payload follow its layout. -/
theorem decoded_filesFollow {sep p : Text} {y : Layout} {m k : Nat} {d : Decoded} {r : Results}
    (hy : y.wf m = true) (h : decodeLayout sep p y m k = .ok d) (ht : r.tFile = numEntries d.values)
    (hs : r.sFile = textEntries d.values) : FilesFollow sep p y r := by
  simp only [FilesFollow, Results.readT, Results.readS, ht, hs]
  refine ⟨fun f hf => ⟨fun hk => decoded_lookup_u hy h hf hk, fun hk => decoded_lookup_s16 hy h hf hk,
    fun hk => ?_, fun hk => ?_⟩, fun name hname => ?_⟩
  · obtain ⟨t, hconv, hlookup⟩ := decoded_lookup_text hy h hf (.inl hk)
    obtain ⟨bs, hbs, rfl⟩ := convert_text hk hconv
    exact ⟨bs, hbs, hlookup⟩
  · obtain ⟨t, hconv, hlookup⟩ := decoded_lookup_text hy h hf (.inr hk)
    exact hlookup.trans (congrArg some (convert_ver hk hconv))
  · obtain ⟨-, hv, -⟩ := decodeLayout_ok h
    exact lookup_entries_none (convertFields_forall₂ hv) hname

/-! ## The capacity layout -/

theorem textEntries_eq_nil {vs : List (FieldName × Value)} (h : ∀ nv ∈ vs, ∃ n, nv.2 = .num n) :
    textEntries vs = [] := by
  induction vs with
  | nil => rfl
  | cons nv vs ih =>
    obtain ⟨name, v⟩ := nv
    obtain ⟨⟨n, rfl⟩, hrest⟩ := List.forall_mem_cons.1 h
    exact ih hrest

theorem Config.cap_kinds (c : Config) : ∀ f ∈ c.params.layoutCap.fields, f.kind = .u := by
  have h := (Config.cap_wf c).2
  simp only [Layout.capOk, Bool.and_eq_true, List.all_eq_true, FieldDesc.isKind, decide_eq_true_eq] at h
  obtain ⟨-, hkinds⟩ := h
  exact hkinds

/-- R113: a capacity payload has no strings. -/
theorem decodeCap_noTexts {c : Config} {p : Text} {d : Decoded} (h : decodeCapLayout c p = .ok d) :
    textEntries d.values = [] := by
  obtain ⟨-, hv, -⟩ := decodeLayout_ok h
  refine textEntries_eq_nil fun nv hnv => ?_
  obtain ⟨f, hf, -, hconv⟩ := forall₂_exists_left (convertFields_forall₂ hv) hnv
  obtain ⟨x, -, hnum⟩ := convert_u (Config.cap_kinds c f hf) hconv
  exact ⟨_, hnum⟩

/-! ## The manufacturer layout -/

/-- R91: what a layout requires of a name holds of every field with that name. -/
theorem Layout.of_hasField {y : Layout} {m : Nat} (hy : y.wf m = true) {q : FieldDesc → Bool}
    {f : FieldDesc} (hf : f ∈ y.fields) (h : y.hasField f.name q = true) : q f = true := by
  obtain ⟨g, hg, hname, hq⟩ := Layout.hasField_iff.1 h
  rwa [← Layout.field_unique hy hg hf hname]

/-- R110: the kinds of the four fields of a manufacturer payload. -/
theorem Config.mfr_kinds (c : Config) : ∀ f ∈ c.params.layoutMfr.fields,
    (f.name = .hwType ∨ f.name = .product ∨ f.name = .project → f.kind = .text) ∧
      (f.name = .fw → f.kind = .ver) := by
  obtain ⟨hy, h⟩ := Config.mfr_wf c
  simp only [Layout.mfrOk, Bool.and_eq_true] at h
  obtain ⟨⟨⟨⟨-, hhw⟩, hproduct⟩, hproject⟩, hfw⟩ := h
  have kind_of : ∀ {k : FieldKind} {f : FieldDesc}, f ∈ c.params.layoutMfr.fields →
      c.params.layoutMfr.hasField f.name (FieldDesc.isKind k) = true → f.kind = k :=
    fun hf hfield => of_decide_eq_true (Layout.of_hasField hy hf hfield)
  refine fun f hf => ⟨fun hname => kind_of hf ?_, fun hname => kind_of hf (hname ▸ hfw)⟩
  rcases hname with hname | hname | hname
  · exact hname ▸ hhw
  · exact hname ▸ hproduct
  · exact hname ▸ hproject

/-- R110: an identity has the four strings that are found under their names. -/
theorem identityOf_eq_some {texts : List (FieldName × Text)} {id : Identity}
    (h : identityOf texts = some id) :
    texts.lookup .hwType = some id.hwType ∧ texts.lookup .product = some id.product ∧
      texts.lookup .project = some id.project ∧ texts.lookup .fw = some id.fw := by
  unfold identityOf at h
  split at h
  · next h1 h2 h3 h4 => cases h; exact ⟨h1, h2, h3, h4⟩
  · cases h

/-- R109, R110: the decoded identity holds the converted strings of the four fields. -/
theorem decodeMfr_identity {c : Config} {p : Text} {d : Decoded} {id : Identity}
    (h : decodeMfrLayout c p = .ok d) (hid : identityOf (textEntries d.values) = some id) :
    ∀ f ∈ c.params.layoutMfr.fields,
      (f.name = .hwType → ∃ bs, textBytes (charsOf p c.params.layoutMfr f) = some bs ∧
        id.hwType = stripText bs) ∧
      (f.name = .product → ∃ bs, textBytes (charsOf p c.params.layoutMfr f) = some bs ∧
        id.product = stripText bs) ∧
      (f.name = .project → ∃ bs, textBytes (charsOf p c.params.layoutMfr f) = some bs ∧
        id.project = stripText bs) ∧
      (f.name = .fw → id.fw = joinWith c.params.fwSep (pairsOf (charsOf p c.params.layoutMfr f))) := by
  intro f hf
  obtain ⟨htext, hver⟩ := Config.mfr_kinds c f hf
  obtain ⟨hhw, hproduct, hproject, hfw⟩ := identityOf_eq_some hid
  obtain ⟨hfiles, -⟩ := decoded_filesFollow (r := d.results) (Config.mfr_wf c).1 h rfl rfl
  obtain ⟨-, -, hreadText, hreadVer⟩ := hfiles f hf
  have text_eq : ∀ {t : Text}, f.kind = .text → (textEntries d.values).lookup f.name = some t →
      ∃ bs, textBytes (charsOf p c.params.layoutMfr f) = some bs ∧ t = stripText bs :=
    fun hk hlookup => by
      obtain ⟨bs, hbs, hread⟩ := hreadText hk
      exact ⟨bs, hbs, Option.some.inj (hlookup.symm.trans hread)⟩
  have ver_eq : f.kind = .ver → (textEntries d.values).lookup f.name = some id.fw →
      id.fw = joinWith c.params.fwSep (pairsOf (charsOf p c.params.layoutMfr f)) :=
    fun hk hlookup => Option.some.inj (hlookup.symm.trans (hreadVer hk))
  exact ⟨fun hname => text_eq (htext (.inl hname)) (hname ▸ hhw),
    fun hname => text_eq (htext (.inr (.inl hname))) (hname ▸ hproduct),
    fun hname => text_eq (htext (.inr (.inr hname))) (hname ▸ hproject),
    fun hname => ver_eq (hver hname) (hname ▸ hfw)⟩

/-! ## The cells -/

/-- R102, R116: the decoded cells are the values of the first `k` elements, in order. -/
theorem convertCells_getElem? {p : Text} {y : Layout} {g : RepGroup} {k : Nat} {cells : List Scaled}
    (hg : y.rep = some g) (h : convertCells p y k = some cells) {i : Nat} (hi : i < k) :
    ∃ x, parseHex (elementAt p y g i) = some x ∧ cells[i]? = some ⟨(x : Int), g.div⟩ := by
  simp only [convertCells, hg, mapM_some_iff, List.forall₂_iff_get, List.length_range] at h
  obtain ⟨hlen, hget⟩ := h
  have hconv := hget i (by simpa using hi) (hlen ▸ hi)
  simp only [List.get_eq_getElem, List.getElem_range] at hconv
  obtain ⟨x, hx, heq⟩ := convertU_eq_some hconv
  exact ⟨x, hx, List.getElem?_eq_some_iff.2 ⟨hlen ▸ hi, heq⟩⟩

/-- R115, R116: a cell of a realtime payload has the divisor of a cell voltage. -/
theorem decodeRt_cell {c : Config} {p : Text} {g : RepGroup} {k : Nat} {d : Decoded}
    (hg : c.params.layoutRt.rep = some g) (h : decodeRtLayout c p k = .ok d) {i : Nat} (hi : i < k) :
    ∃ x, parseHex (elementAt p c.params.layoutRt g i) = some x ∧ d.cells[i]? = some ⟨(x : Int), 1000⟩ := by
  obtain ⟨-, -, hcells⟩ := decodeLayout_ok h
  obtain ⟨x, hx, hcell⟩ := convertCells_getElem? hg hcells hi
  have hdiv : g.div = 1000 := decodeRt_cells_div h _ (List.mem_of_getElem? hcell)
  exact ⟨x, hx, hdiv ▸ hcell⟩

/-! ## The mapper stage -/

/-- R122. -/
theorem level_levelIs (r pmask wmask : BitVec 16) : LevelIs r pmask wmask (level r pmask wmask) := by
  refine ⟨fun hp => ?_, fun hp hw => ?_, fun hp hw => ?_⟩
  · rw [level, if_pos hp]
  · rw [level, if_neg (not_not.2 hp), if_pos hw]
  · rw [level, if_neg (not_not.2 hp), if_neg (not_not.2 hw)]

/-- R121: with 14 rows for 14 categories, no category has two rows. -/
theorem Config.alarmTable_nodup (c : Config) : (c.params.alarmTable.map (·.cat)).Nodup := by
  obtain ⟨hlen, hall⟩ := Config.alarmTable_complete c
  have hnodup : Category.all.Nodup := by decide
  have hsub : Category.all ⊆ c.params.alarmTable.map (·.cat) := fun cat _ => List.mem_map.2 (hall cat)
  have hperm : Category.all.Perm (c.params.alarmTable.map (·.cat)) :=
    (hnodup.subperm hsub).perm_of_length_le (by rw [List.length_map, hlen]; rfl)
  exact hperm.nodup_iff.1 hnodup

/-- R119: `A` holds for each row of the table the level of its register. -/
theorem alarmFile_lookup {table : List AlarmRow} (hnodup : (table.map (·.cat)).Nodup) (regs : StatusRegs)
    {row : AlarmRow} (hrow : row ∈ table) :
    (alarmFile table regs).lookup row.cat = some (level (regs.pick row.reg) row.pmask row.wmask) := by
  induction table with
  | nil => cases hrow
  | cons first rest ih =>
    obtain ⟨hfirst, hrest⟩ := List.nodup_cons.1 hnodup
    rcases List.mem_cons.1 hrow with rfl | hrow
    · exact List.lookup_cons_self
    · have hne : (row.cat == first.cat) = false :=
        beq_eq_false_iff_ne.2 fun heq => hfirst (List.mem_map.2 ⟨row, hrow, heq⟩)
      rw [alarmFile, List.map_cons, List.lookup_cons, hne]
      exact ih hrest hrow

/-- R124. -/
theorem fetEngaged_of_bit {fet : BitVec 8} {b : Fin 8} {bit : Bool} (h : fet.getLsbD b.val = bit) :
    fetEngaged fet b = !bit := by
  rw [fetEngaged, h]

/-- R119, R124, R125: the mapper stage delivers the alarms of its registers over any results. -/
theorem alarmMap_alarmsFollow (cfg : Config) (regs : StatusRegs) (chgMax dsgMax : BitVec 32) (r : Results) :
    AlarmsFollow cfg regs.v regs.c regs.t regs.w regs.fet chgMax dsgMax
      (alarmMap cfg regs chgMax dsgMax r) := by
  refine ⟨fun row hrow => ⟨_, alarmFile_lookup (Config.alarmTable_nodup cfg) regs hrow, ?_⟩, ?_, ?_, ?_, ?_⟩
  · have hlevel := level_levelIs (regs.pick row.reg) row.pmask row.wmask
    exact ⟨fun hreg => hreg ▸ hlevel, fun hreg => hreg ▸ hlevel, fun hreg => hreg ▸ hlevel,
      fun hreg => hreg ▸ hlevel⟩
  all_goals
    intro hbit
    simp [alarmMap, gateLimit, fetEngaged_of_bit hbit]

/-- R118, R119: what `AlarmMap` writes depends on the configuration, the registers and the maxima alone. -/
theorem alarmMap_sameAlarms (cfg : Config) (regs : StatusRegs) (chgMax dsgMax : BitVec 32)
    (r r' : Results) : SameAlarms (alarmMap cfg regs chgMax dsgMax r) (alarmMap cfg regs chgMax dsgMax r') :=
  ⟨fun _ => rfl, rfl, rfl, rfl, rfl⟩

/-- R97: five registers are determined by the values that `T` holds under their names. -/
theorem decodedRegs_unique {t : List (FieldName × Scaled)} {regs regs' : StatusRegs}
    (hregs : decodedRegs t = some regs)
    (hv : t.lookup .vstat = some ⟨(regs'.v.toNat : Int), 1⟩)
    (hc : t.lookup .cstat = some ⟨(regs'.c.toNat : Int), 1⟩)
    (ht : t.lookup .tstat = some ⟨(regs'.t.toNat : Int), 1⟩)
    (hw : t.lookup .wstat = some ⟨(regs'.w.toNat : Int), 1⟩)
    (hfet : t.lookup .fetst = some ⟨(regs'.fet.toNat : Int), 1⟩) : regs = regs' := by
  have register_eq : ∀ {w : Nat} (x : BitVec w), BitVec.ofInt w (x.toNat : Int) = x := fun x => by
    rw [BitVec.ofInt_natCast, BitVec.ofNat_toNat, BitVec.setWidth_eq]
  simp only [decodedRegs, hv, hc, ht, hw, hfet, register_eq, Option.some.injEq] at hregs
  exact hregs.symm

/-! ## The four decoders on a payload in `IN` -/

section

variable {s : State} {p : Text} {d : Decoded}

theorem exec_decodeSys_of_ok (hin : InHolds s p) (h : decodeSysLayout s.cfg p = .ok d) :
    exec .decodeSys s = .next (s.finish d.results) := by
  refine (State.onIn_of_inHolds hin _).trans ?_
  rw [h]

theorem exec_decodeCap_of_ok (hin : InHolds s p) (h : decodeCapLayout s.cfg p = .ok d) :
    exec .decodeCap s = .next (s.finish d.results) := by
  refine (State.onIn_of_inHolds hin _).trans ?_
  rw [h]

theorem exec_decodeMfr_of_ok {fresh : Identity} (hin : InHolds s p) (h : decodeMfrLayout s.cfg p = .ok d)
    (hfresh : identityOf (textEntries d.values) = some fresh) :
    exec .decodeMfr s = .next (({ s with mid := some (cacheUpdate s.mid fresh) } : State).finish
      (identityResults (cacheUpdate s.mid fresh))) := by
  refine (State.onIn_of_inHolds hin _).trans ?_
  simp only [h, hfresh]

theorem exec_decodeRt_of_ok {regs : StatusRegs} (hin : InHolds s p)
    (hcells : cellCountProblem s.operands = none)
    (h : decodeRtLayout s.cfg p s.operands.cells.toNat = .ok d)
    (hregs : decodedRegs (numEntries d.values) = some regs) :
    exec .decodeRt s = .next (s.finish (alarmMap s.cfg regs s.operands.chgMax s.operands.dsgMax
      (d.rtResults s.operands.cells))) := by
  change execDecodeRt s = _
  rw [execDecodeRt, hcells, State.onIn_of_inHolds hin]
  simp only [h, hregs]

end

/-- R117, R135: a broken cell-count contract stops DECODE_RT before it looks at `IN`. -/
theorem exec_decodeRt_of_cellCountProblem {s : State} {e : Stop} (hlen : s.operands.inLen.toNat ≤ inCap)
    (h : cellCountProblem s.operands = some e) : exec .decodeRt s = .next (s.stop e) := by
  change execDecodeRt s = _
  rw [execDecodeRt, h, State.onIn_contract hlen]

theorem cellCountProblem_of_unknown {o : Operands} (h : o.cellsKnown = false) :
    cellCountProblem o = some ⟨.badCellCount, 1⟩ := by
  rw [cellCountProblem, if_pos h]

theorem cellCountProblem_of_tooMany {o : Operands} (hknown : o.cellsKnown = true)
    (hmany : 16 < o.cells.toNat) : cellCountProblem o = some ⟨.badCellCount, 2⟩ := by
  have hmax : maxCells < o.cells.toNat := hmany
  rw [cellCountProblem, if_neg (by simp [hknown]), if_pos hmax]

/-- R129, R130: no cause has the code of OK. -/
theorem Cause.code_ne_zero (c : Cause) : c.code ≠ 0 := by
  cases c <;> decide

theorem State.stop_result_ne_zero (s : State) (e : Stop) : (s.stop e).result ≠ 0 := e.cause.code_ne_zero

/-- R114: a DECODE_RT that ended OK delivered what the mapper stage made of its decoded registers. -/
theorem exec_decodeRt_next_ok {s t : State} (h : exec .decodeRt s = .next t) (hok : t.result = 0) :
    ∃ (d : Decoded) (regs : StatusRegs), decodedRegs (numEntries d.values) = some regs ∧
      t = s.finish (alarmMap s.cfg regs s.operands.chgMax s.operands.dsgMax
        (d.rtResults s.operands.cells)) := by
  rcases execDecodeRt_next h with
    rfl | ⟨_, -, rfl⟩ | ⟨-, _, _, -, -, rfl⟩ | ⟨-, _, d, regs, -, -, hregs, rfl⟩
  · exact absurd hok (s.stop_result_ne_zero _)
  · exact absurd hok (s.stop_result_ne_zero _)
  · exact absurd hok (s.stop_result_ne_zero _)
  · exact ⟨d, regs, hregs, rfl⟩

end Sys2Proof.Machine

namespace Sys2Proof.Claims

open Sys2Proof Sys2Proof.Machine

/-- Settles O26: the payload decodes, and DECODE_SYS finishes with the files of the decoded values. -/
theorem decodeSysDeliversFields : Obligations.DecodeSysDeliversFields := by
  intro s p hin hdec
  obtain ⟨hy, -⟩ := Config.sys_wf s.cfg
  obtain ⟨d, hd⟩ := decodeLayout_of_decodable (sep := s.cfg.params.fwSep) hy (Config.sys_noGroup s.cfg) hdec
  exact ⟨_, exec_decodeSys_of_ok hin hd, s.finish_endsOk _, rfl, decoded_filesFollow hy hd rfl rfl, rfl,
    Memory.read_nil⟩

/-- Settles O27: as for DECODE_SYS, and a layout of `U` fields leaves `S` empty (`decodeCap_noTexts`). -/
theorem decodeCapDeliversFields : Obligations.DecodeCapDeliversFields := by
  intro s p hin hdec
  obtain ⟨hy, -⟩ := Config.cap_wf s.cfg
  obtain ⟨d, hd⟩ := decodeLayout_of_decodable (sep := s.cfg.params.fwSep) hy (Config.cap_noGroup s.cfg) hdec
  have honlyT : d.results = { Results.empty with tFile := d.results.tFile } := by
    rw [Decoded.results, decodeCap_noTexts hd]
    rfl
  exact ⟨_, exec_decodeCap_of_ok hin hd, s.finish_endsOk _, rfl, decoded_filesFollow hy hd rfl rfl, honlyT,
    Memory.read_nil⟩

/-- Settles O28: `cacheUpdate` keeps the identity that `MID` holds and otherwise takes the decoded one, whose
strings are those of the four fields (`decodeMfr_identity`). -/
theorem decodeMfrWritesCacheOnce : Obligations.DecodeMfrWritesCacheOnce := by
  intro s p hin hdec
  obtain ⟨d, hd⟩ := decodeLayout_of_decodable (sep := s.cfg.params.fwSep) (Config.mfr_wf s.cfg).1
    (Config.mfr_noGroup s.cfg) hdec
  obtain ⟨fresh, hfresh⟩ := identityOf_isSome hd
  have hold : ∀ old, s.mid = some old → cacheUpdate s.mid fresh = old := fun old hmid => by
    rw [hmid, cacheUpdate_some]
  have hnew : s.mid = none → cacheUpdate s.mid fresh = fresh := fun hmid => by rw [hmid, cacheUpdate]
  have hkeeps := s.withMid_keepsInputs (some (cacheUpdate s.mid fresh))
  refine ⟨_, cacheUpdate s.mid fresh, exec_decodeMfr_of_ok hin hd hfresh, ⟨rfl, rfl, hkeeps, rfl⟩, rfl, hold,
    fun hmid => ?_, rfl, rfl, rfl, rfl, rfl, Memory.read_nil⟩
  rw [hnew hmid]
  exact decodeMfr_identity hd hfresh

/-- Settles O29: the payload decodes with its cells; the five registers are read from the decoded `T`
(`decodedRegs_isSome`), and the mapper stage adds their alarms to the decoded results. -/
theorem decodeRtDeliversTelemetry : Obligations.DecodeRtDeliversTelemetry := by
  intro s p g hin hknown hcells hg hdec hend hdigits
  obtain ⟨hy, -⟩ := Config.rt_wf s.cfg
  obtain ⟨d, hd⟩ := decodeLayout_of_decodable_group (sep := s.cfg.params.fwSep) hy hg hdec hend hdigits
  obtain ⟨regs, hregs, hv, hc, ht, hw, hfet, -⟩ := decodedRegs_isSome hd
  have hnoCell : ∀ i, s.operands.cells.toNat ≤ i → d.cells[i]? = none := fun i hi =>
    List.getElem?_eq_none ((decodeRt_cells_length hd).trans_le hi)
  exact ⟨_, regs.v, regs.c, regs.t, regs.w, regs.fet,
    exec_decodeRt_of_ok hin (cellCountProblem_of_legal hknown hcells) hd hregs, s.finish_endsOk _, rfl,
    decoded_filesFollow hy hd rfl rfl, fun i hi => decodeRt_cell hg hd hi, hnoCell, rfl, hv, hc, ht, hw, hfet,
    alarmMap_alarmsFollow _ _ _ _ _, rfl, rfl, rfl, Memory.read_nil⟩

/-- Settles O31: the values in `T` determine the registers of the mapper stage, and ALARM_MAP runs the same
`alarmMap` on them. -/
theorem decodeRtAgreesWithAlarmMap : Obligations.DecodeRtAgreesWithAlarmMap := by
  intro s t u hexec hok hcfg hchg hdsg hv hc ht hw hfet
  obtain ⟨d, regs, hregs, rfl⟩ := exec_decodeRt_next_ok hexec hok
  have hsame : regs = u.statusRegs := decodedRegs_unique hregs hv hc ht hw hfet
  refine ⟨_, rfl, ?_⟩
  rw [State.finish_results, State.finish_results, hcfg, hchg, hdsg, hsame]
  exact alarmMap_sameAlarms _ _ _ _ _ _

/-- Settles O30: the contract is tested after `IN_LEN` and before the string in `IN`. -/
theorem decodeRtCellCountContract : Obligations.DecodeRtCellCountContract := by
  intro s hlen
  exact ⟨fun hunknown => ⟨_, exec_decodeRt_of_cellCountProblem hlen (cellCountProblem_of_unknown hunknown),
      s.stop_endsStopped ⟨.badCellCount, 1⟩⟩,
    fun hknown hmany => ⟨_, exec_decodeRt_of_cellCountProblem hlen (cellCountProblem_of_tooMany hknown hmany),
      s.stop_endsStopped ⟨.badCellCount, 2⟩⟩⟩

end Sys2Proof.Claims
end

section
/-! PROOFS. The Protection/Alarm Mapper (45_alarm_mapper.md). ALARM_MAP delivers the mapper stage of its five
operand registers. For a category that stage comes down to one row of the table, whatever the registers hold, so
that the laws of R127 are laws of `level` at the register that the row names. -/

namespace Sys2Proof.Machine

open Sys2Proof Sys2Proof.Claims

/-! ## What ALARM_MAP and the mapper stage write -/

/-- R126. -/
theorem exec_alarmMap (s : State) : exec .alarmMap s = .next (s.finish
    (alarmMap s.cfg s.statusRegs s.operands.chgMax s.operands.dsgMax Results.empty)) := rfl

section

variable (cfg : Config) (regs : StatusRegs) (chgMax dsgMax : BitVec 32) (r : Results)

@[simp] theorem alarmMap_chgEn :
    (alarmMap cfg regs chgMax dsgMax r).chgEn = some (fetEngaged regs.fet cfg.params.fetChgBit) := rfl
@[simp] theorem alarmMap_dsgEn :
    (alarmMap cfg regs chgMax dsgMax r).dsgEn = some (fetEngaged regs.fet cfg.params.fetDsgBit) := rfl
@[simp] theorem alarmMap_chgLim : (alarmMap cfg regs chgMax dsgMax r).chgLim =
    some (gateLimit (fetEngaged regs.fet cfg.params.fetChgBit) chgMax) := rfl
@[simp] theorem alarmMap_dsgLim : (alarmMap cfg regs chgMax dsgMax r).dsgLim =
    some (gateLimit (fetEngaged regs.fet cfg.params.fetDsgBit) dsgMax) := rfl

/-- R119: the level of a row of the table stands under the row's category. -/
theorem alarmMap_readA {row : AlarmRow} (hrow : row ∈ cfg.params.alarmTable) :
    (alarmMap cfg regs chgMax dsgMax r).readA row.cat =
      some (level (regs.pick row.reg) row.pmask row.wmask) :=
  alarmFile_lookup (Config.alarmTable_nodup cfg) regs hrow

/-- R24: the mapper stage leaves no category without a level. -/
theorem alarmMap_readA_isSome (cat : Category) :
    ((alarmMap cfg regs chgMax dsgMax r).readA cat).isSome = true := by
  obtain ⟨row, hrow, rfl⟩ := (Config.alarmTable_complete cfg).2 cat
  rw [alarmMap_readA _ _ _ _ _ hrow, Option.isSome_some]

end

/-! ## The levels -/

/-- R122: a register of zeros is normal under any masks. -/
theorem level_zero (pmask wmask : BitVec 16) : level 0 pmask wmask = .normal := by
  obtain ⟨-, -, hnormal⟩ := level_levelIs 0 pmask wmask
  exact hnormal BitVec.zero_and BitVec.zero_and

/-- A register that meets a mask still meets it with further bits set. -/
theorem and_mask_ne_zero_of_covers {r r' mask : BitVec 16} (hcover : r' &&& r = r)
    (hmask : r &&& mask ≠ 0) : r' &&& mask ≠ 0 := by
  intro hzero
  apply hmask
  calc r &&& mask = r' &&& r &&& mask := by rw [hcover]
    _ = r &&& (r' &&& mask) := by rw [BitVec.and_comm r' r, BitVec.and_assoc]
    _ = 0 := by rw [hzero]; exact BitVec.and_zero

/-- R127: setting further bits of a register never lowers the level. -/
theorem levelRank_level_mono {r r' : BitVec 16} (hcover : r' &&& r = r) (pmask wmask : BitVec 16) :
    levelRank (level r pmask wmask) ≤ levelRank (level r' pmask wmask) := by
  obtain ⟨hprot, hwarn, hnormal⟩ := level_levelIs r pmask wmask
  obtain ⟨hprot', hwarn', -⟩ := level_levelIs r' pmask wmask
  by_cases hp : r &&& pmask = 0
  · by_cases hw : r &&& wmask = 0
    · rw [hnormal hp hw]
      exact Nat.zero_le _
    · rw [hwarn hp hw]
      by_cases hp' : r' &&& pmask = 0
      · rw [hwarn' hp' (and_mask_ne_zero_of_covers hcover hw)]
      · rw [hprot' hp']
        decide
  · rw [hprot hp, hprot' (and_mask_ne_zero_of_covers hcover hp)]

/-- R24: no level has the 2-bit code 3. -/
theorem Level.code_ne_three (l : Level) : l.code ≠ 3 := by
  cases l <;> decide

/-- What relates the four status registers one by one relates the registers that a row names. -/
theorem StatusRegs.pick_rel {P : BitVec 16 → BitVec 16 → Prop} {regs regs' : StatusRegs}
    (hv : P regs.v regs'.v) (hc : P regs.c regs'.c) (ht : P regs.t regs'.t) (hw : P regs.w regs'.w) :
    ∀ reg, P (regs.pick reg) (regs'.pick reg)
  | .v => hv
  | .c => hc
  | .t => ht
  | .w => hw

/-- R121 (b): the row of `HIGH_PACK_VOLT` reads the voltage register and has bit 0 in `pmask`. -/
theorem Config.packVolt_row (c : Config) {row : AlarmRow} (hrow : row ∈ c.params.alarmTable)
    (hcat : row.cat = .highPackVolt) : row.reg = .v ∧ row.pmask.getLsbD 0 = true := by
  have h := Config.table_ok c
  simp only [tableOk, Bool.and_eq_true, List.all_eq_true] at h
  obtain ⟨⟨-, hrows⟩, -⟩ := h
  obtain ⟨hpack, -⟩ := hrows row hrow
  exact of_decide_eq_true hpack hcat

/-- Two words that share a bit have a conjunction with that bit. -/
theorem and_ne_zero_of_getLsbD {r mask : BitVec 16} {i : Nat} (hr : r.getLsbD i = true)
    (hmask : mask.getLsbD i = true) : r &&& mask ≠ 0 := by
  intro hzero
  have hbit : (r &&& mask).getLsbD i = true := by rw [BitVec.getLsbD_and, hr, hmask, Bool.and_self]
  rw [hzero] at hbit
  simp at hbit

/-! ## The laws of the mapper stage -/

section

variable {cfg : Config} {regs regs' : StatusRegs} {chgMax dsgMax chgMax' dsgMax' : BitVec 32}
  {r r' : Results}

/-- R127 (a). -/
theorem alarmMap_readA_of_zero (hv : regs.v = 0) (hc : regs.c = 0) (ht : regs.t = 0) (hw : regs.w = 0)
    (cat : Category) : (alarmMap cfg regs chgMax dsgMax r).readA cat = some .normal := by
  obtain ⟨row, hrow, rfl⟩ := (Config.alarmTable_complete cfg).2 cat
  have hpick : regs.pick row.reg = 0 :=
    StatusRegs.pick_rel (P := fun x _ => x = 0) (regs' := regs) hv hc ht hw row.reg
  rw [alarmMap_readA _ _ _ _ _ hrow, hpick, level_zero]

/-- R127 (b). -/
theorem alarmMap_readA_packVolt (hbit : regs.v.getLsbD 0 = true) :
    (alarmMap cfg regs chgMax dsgMax r).readA .highPackVolt = some .protection := by
  obtain ⟨row, hrow, hcat⟩ := (Config.alarmTable_complete cfg).2 .highPackVolt
  obtain ⟨hreg, hmask⟩ := Config.packVolt_row cfg hrow hcat
  obtain ⟨hprot, -, -⟩ := level_levelIs regs.v row.pmask row.wmask
  rw [← hcat, alarmMap_readA _ _ _ _ _ hrow, hreg]
  exact congrArg some (hprot (and_ne_zero_of_getLsbD hbit hmask))

/-- R127: with further bits set in the status registers, no category gets a lower level. -/
theorem alarmMap_readA_mono (hv : regs'.v &&& regs.v = regs.v) (hc : regs'.c &&& regs.c = regs.c)
    (ht : regs'.t &&& regs.t = regs.t) (hw : regs'.w &&& regs.w = regs.w) {cat : Category} {l l' : Level}
    (hl : (alarmMap cfg regs chgMax dsgMax r).readA cat = some l)
    (hl' : (alarmMap cfg regs' chgMax' dsgMax' r').readA cat = some l') : levelRank l ≤ levelRank l' := by
  obtain ⟨row, hrow, rfl⟩ := (Config.alarmTable_complete cfg).2 cat
  rw [alarmMap_readA _ _ _ _ _ hrow, Option.some.injEq] at hl hl'
  rw [← hl, ← hl']
  exact levelRank_level_mono
    (StatusRegs.pick_rel (P := fun x x' => x' &&& x = x) hv hc ht hw row.reg) row.pmask row.wmask

/-- R127: the levels depend on the four status registers alone. -/
theorem alarmMap_readA_congr (hv : regs'.v = regs.v) (hc : regs'.c = regs.c) (ht : regs'.t = regs.t)
    (hw : regs'.w = regs.w) (cat : Category) :
    (alarmMap cfg regs' chgMax' dsgMax' r').readA cat = (alarmMap cfg regs chgMax dsgMax r).readA cat := by
  obtain ⟨row, hrow, rfl⟩ := (Config.alarmTable_complete cfg).2 cat
  have hpick : regs'.pick row.reg = regs.pick row.reg := StatusRegs.pick_rel hv hc ht hw row.reg
  rw [alarmMap_readA _ _ _ _ _ hrow, alarmMap_readA _ _ _ _ _ hrow, hpick]

end

/-- R125: a limit is its maximum or 0. -/
theorem gateLimit_eq_max_or_zero (engaged : Bool) (max : BitVec 32) :
    some (gateLimit engaged max) = some max ∨ some (gateLimit engaged max) = some 0 := by
  cases engaged with
  | true => exact .inl rfl
  | false => exact .inr rfl

end Sys2Proof.Machine

namespace Sys2Proof.Claims

open Sys2Proof Sys2Proof.Machine

/-- Settles O32: ALARM_MAP finishes with the mapper stage of its operand registers, written over no results. -/
theorem alarmMapDeliversAlarms : Obligations.AlarmMapDeliversAlarms := by
  intro s
  exact ⟨_, exec_alarmMap s, s.finish_endsOk _, rfl, alarmMap_alarmsFollow s.cfg s.statusRegs _ _ _,
    alarmMap_readA_isSome _ _ _ _ _, rfl, Memory.read_nil⟩

/-- Settles O33: each clause is the law of the mapper stage of that kind; the flags and the limits are read
off what it writes, in which no status register occurs. -/
theorem alarmMapProperties : Obligations.AlarmMapProperties := by
  intro s t h
  cases h
  refine ⟨alarmMap_readA_of_zero (regs := s.statusRegs), alarmMap_readA_packVolt (regs := s.statusRegs),
    fun _ l _ => l.code_ne_three, gateLimit_eq_max_or_zero _ _, gateLimit_eq_max_or_zero _ _, ?_⟩
  intro s' t' h' hcfg
  cases h'
  simp only [State.finish_results, hcfg]
  refine ⟨fun hv hc ht hw _ _ _ => alarmMap_readA_mono hv hc ht hw,
    alarmMap_readA_congr (regs := s.statusRegs) (regs' := s'.statusRegs), ?_⟩
  intro hfet hchg hdsg
  have hfet' : s'.statusRegs.fet = s.statusRegs.fet := hfet
  simp only [alarmMap_chgEn, alarmMap_dsgEn, alarmMap_chgLim, alarmMap_dsgLim, hfet', hchg, hdsg,
    and_self]

end Sys2Proof.Claims
end

section
/-! PROOFS. How a step ends (60_exceptions.md). A step that does not end OK is a `stop` (R137); every `stop` of
an operation has a cause that R131 or R132 lists for it; and an operation on a string that the host has written
always ends (R140). -/

namespace Sys2Proof.Machine

open Sys2Proof Sys2Proof.Claims

/-! ## A step that does not end OK -/

/-- R137: an end with `RESULT` not 0 is a `stop`, since `finish` writes `RESULT` 0. -/
theorem exec_failed {i : Instr} {s t : State} (h : exec i s = .next t) (hne : t.result ≠ 0) :
    ∃ e, t = s.stop e := by
  rcases exec_next h with he | ⟨r, rfl⟩ | ⟨-, fresh, rfl⟩
  · exact he
  · exact absurd (s.finish_result r) hne
  · exact absurd (State.finish_result _ _) hne

theorem step_failed {s t : State} (h : step s = .next t) (hne : t.result ≠ 0) : ∃ e, t = s.stop e := by
  rcases step_next h with ⟨i, -, hi⟩ | rfl
  · exact exec_failed hi hne
  · exact ⟨_, rfl⟩

/-! ## The causes of VALIDATE -/

section

variable {raw : Text} {e : Stop}

/-- A sequence of two checks fails with the first, or with the second on what the first answered. -/
theorem bind_eq_error {α β : Type} {check : Except Stop α} {next : α → Except Stop β}
    (h : check >>= next = .error e) : check = .error e ∨ ∃ a, next a = .error e := by
  cases check with
  | error _ => cases h; exact .inl rfl
  | ok a => exact .inr ⟨a, h⟩

/-- R80: `validate` fails with what one of its checks fails with. -/
theorem validate_error (h : validate raw = .error e) :
    checkMarkers raw = .error e ∨ checkStatus raw = .error e ∨ checkLength raw = .error e ∨
      checkPacket raw = .error e ∨ ∃ lenId, checkCount raw lenId = .error e := by
  rcases bind_eq_error h with hmarkers | ⟨_, h⟩
  · exact .inl hmarkers
  rcases bind_eq_error h with hstatus | ⟨_, h⟩
  · exact .inr (.inl hstatus)
  rcases bind_eq_error h with hlength | ⟨lenId, h⟩
  · exact .inr (.inr (.inl hlength))
  rcases bind_eq_error h with hpacket | ⟨_, h⟩
  · exact .inr (.inr (.inr (.inl hpacket)))
  rcases bind_eq_error h with hcount | ⟨_, h⟩
  · exact .inr (.inr (.inr (.inr ⟨lenId, hcount⟩)))
  · cases h

/-- R82, R83. -/
theorem checkMarkers_error (h : checkMarkers raw = .error e) :
    e = ⟨.frameTooShort, 0⟩ ∨ e = ⟨.badMarker, 0⟩ := by
  unfold checkMarkers at h
  split at h
  · cases h; exact .inl rfl
  · split at h
    · cases h
    · cases h; exact .inr rfl

/-- R84: the status field has two digits, so a status that is not 0 is not 0 in `RINFO` either. -/
theorem checkStatus_error (h : checkStatus raw = .error e) :
    e = ⟨.fieldDecodeError, 0⟩ ∨ (e.cause = .statusRejected ∧ e.info ≠ 0) := by
  unfold checkStatus at h
  cases hc : parseHex (sub raw 7 2) with
  | none => rw [hc] at h; cases h; exact .inl rfl
  | some c =>
    simp only [hc] at h
    split at h
    · cases h
    · next hne =>
      cases h
      have hfits : c < 256 := calc
        c < 16 ^ (sub raw 7 2).length := parseHex_lt hc
        _ ≤ 16 ^ 2 := Nat.pow_le_pow_right (by decide) (by rw [sub_length]; exact min_le_left _ _)
      have hinfo : (BitVec.ofNat 8 c).toNat = c := (BitVec.toNat_ofNat c 8).trans (Nat.mod_eq_of_lt hfits)
      exact .inr ⟨rfl, fun hzero => hne (hinfo.symm.trans (congrArg BitVec.toNat hzero))⟩

/-- R85. -/
theorem checkLength_error (h : checkLength raw = .error e) : e = ⟨.lengthChecksumMismatch, 0⟩ := by
  unfold checkLength at h
  split at h
  · cases h; rfl
  · split at h
    · cases h
    · cases h; rfl

/-- R86. -/
theorem checkPacket_error (h : checkPacket raw = .error e) : e = ⟨.packetChecksumMismatch, 0⟩ := by
  unfold checkPacket at h
  split at h
  · cases h; rfl
  · split at h
    · cases h
    · cases h; rfl

/-- R87. -/
theorem checkCount_error {lenId : BitVec 12} (h : checkCount raw lenId = .error e) :
    e = ⟨.lengthMismatch, 0⟩ := by
  unfold checkCount at h
  split at h
  · cases h
  · cases h; rfl

end

/-! ## The causes of the contracts -/

/-- R77: the reasons that ENCODE reports. -/
theorem infoProblem_some {info : Text} {reason : BitVec 8} (h : infoProblem info = some reason) :
    reason = 1 ∨ reason = 2 ∨ reason = 3 := by
  unfold infoProblem at h
  split at h
  · cases h; exact .inl rfl
  · split at h
    · cases h; exact .inr (.inl rfl)
    · split at h
      · cases h
      · cases h; exact .inr (.inr rfl)

/-- R117: the two ways in which the cell-count contract can be broken. -/
theorem cellCountProblem_some {o : Operands} {e : Stop} (h : cellCountProblem o = some e) :
    (e = ⟨.badCellCount, 1⟩ ∧ o.cellsKnown = false) ∨
      (e = ⟨.badCellCount, 2⟩ ∧ o.cellsKnown = true ∧ maxCells < o.cells.toNat) := by
  unfold cellCountProblem at h
  split at h
  · next hunknown => cases h; exact .inl ⟨rfl, hunknown⟩
  · next hknown =>
    split at h
    · next hmany => cases h; exact .inr ⟨rfl, by simpa using hknown, hmany⟩
    · cases h

/-! ## The ends that the tables list -/

section

variable {i : Instr} {s t : State}

/-- R130: OK is listed for every operation. -/
theorem State.finish_listedEnd (i : Instr) (s u : State) (r : Results) :
    ListedEnd i s (u.finish r).result (u.finish r).rinfo := .inl ⟨rfl, rfl⟩

/-- R132: BadInLen is listed for the operations that read `IN`. -/
theorem listedEnd_badInLen (hi : readsIn i = true) (hlen : inCap < s.operands.inLen.toNat) :
    ListedEnd i s 0x82 0 := by
  refine .inr (.inl ⟨rfl, rfl, hlen, ?_⟩)
  cases i with
  | lchk => cases hi
  | alarmMap => cases hi
  | _ => simp only [reduceCtorEq, true_or, or_true]

/-- R132: BadInfo is listed for ENCODE. -/
theorem listedEnd_badInfo {info : Text} {reason : BitVec 8} (h : infoProblem info = some reason) :
    ListedEnd .encode s 0x83 reason :=
  .inr (.inr (.inl ⟨rfl, rfl, infoProblem_some h⟩))

/-- R132: BadCellCount is listed for DECODE_RT. -/
theorem listedEnd_badCellCount {e : Stop} (h : cellCountProblem s.operands = some e) :
    ListedEnd .decodeRt s e.cause.code e.info := by
  rcases cellCountProblem_some h with ⟨rfl, hunknown⟩ | ⟨rfl, hknown, hmany⟩
  · exact .inr (.inr (.inr (.inl ⟨rfl, rfl, .inl ⟨rfl, hunknown⟩⟩)))
  · exact .inr (.inr (.inr (.inl ⟨rfl, rfl, .inr ⟨rfl, hknown, hmany⟩⟩)))

/-- R131: the causes that VALIDATE reports with `RINFO` 0. -/
theorem listedEnd_failedCheck {code : BitVec 8}
    (h : code = 0x41 ∨ code = 0x42 ∨ code = 0x44 ∨ code = 0x45 ∨ code = 0x46 ∨ code = 0x48) :
    ListedEnd .validate s code 0 :=
  .inr (.inr (.inr (.inr (.inl ⟨rfl, rfl, h⟩))))

/-- R131: the rejections listed for VALIDATE, check by check in the order of R80. -/
theorem validate_error_listedEnd {raw : Text} {e : Stop} (h : validate raw = .error e) :
    ListedEnd .validate s e.cause.code e.info := by
  rcases validate_error h with h | h | h | h | ⟨lenId, h⟩
  · rcases checkMarkers_error h with rfl | rfl
    · exact listedEnd_failedCheck (.inl rfl)
    · exact listedEnd_failedCheck (.inr (.inl rfl))
  · rcases checkStatus_error h with rfl | ⟨hcause, hinfo⟩
    · exact listedEnd_failedCheck (.inr (.inr (.inr (.inr (.inr rfl)))))
    · exact .inr (.inr (.inr (.inr (.inr (.inl ⟨rfl, congrArg Cause.code hcause, hinfo⟩)))))
  · rw [checkLength_error h]
    exact listedEnd_failedCheck (.inr (.inr (.inl rfl)))
  · rw [checkPacket_error h]
    exact listedEnd_failedCheck (.inr (.inr (.inr (.inl rfl))))
  · rw [checkCount_error h]
    exact listedEnd_failedCheck (.inr (.inr (.inr (.inr (.inl rfl)))))

/-- R131: the rejections listed for the four decoders. -/
theorem decodeStop_listedEnd
    (hi : i = .decodeSys ∨ i = .decodeMfr ∨ i = .decodeCap ∨ i = .decodeRt) {op : BitVec 8}
    (hop : op = (encode i).setWidth 8) {sep p : Text} {y : Layout} {m k : Nat} {c : Cause}
    (h : decodeLayout sep p y m k = .error c) :
    ListedEnd i s (decodeStop op c).cause.code (decodeStop op c).info := by
  rcases decodeLayout_error h with rfl | rfl
  · exact .inr (.inr (.inr (.inr (.inr (.inr (.inr ⟨hi, rfl, hop⟩))))))
  · exact .inr (.inr (.inr (.inr (.inr (.inr (.inl ⟨hi, rfl, rfl⟩))))))

/-- R34, R135: an operation that reads `IN` ends as listed if its contract and what it does with the string
do. -/
theorem State.onIn_listedEnd {c : Option Stop} {body : Text → Host.Outcome State Fault Refusal}
    (hi : readsIn i = true) (h : s.onIn c body = .next t)
    (hcontract : ∀ e, c = some e → ListedEnd i s e.cause.code e.info)
    (hbody : ∀ p, body p = .next t → ListedEnd i s t.result t.rinfo) :
    ListedEnd i s t.result t.rinfo := by
  rcases State.onIn_next h with ⟨hlen, rfl⟩ | ⟨-, e, he, rfl⟩ | ⟨-, -, p, -, hp⟩
  · exact listedEnd_badInLen hi hlen
  · exact hcontract e he
  · exact hbody p hp

/-- R131, R132: the case split is that of `onIn`, which tells a BadInLen with the `IN_LEN` that caused it. -/
theorem exec_listedEnd (h : exec i s = .next t) : ListedEnd i s t.result t.rinfo := by
  have noContract : ∀ e : Stop, none = some e → ListedEnd i s e.cause.code e.info := nofun
  cases i with
  | pchk =>
    simp only [exec, execPchk] at h
    refine State.onIn_listedEnd rfl h noContract fun text hbody => ?_
    cases hbody
    exact s.finish_listedEnd _ _ _
  | lchk => cases h; exact s.finish_listedEnd _ _ _
  | encode =>
    simp only [exec, execEncode] at h
    refine State.onIn_listedEnd rfl h noContract fun info hbody => ?_
    cases hinfo : infoProblem info with
    | some reason => simp only [hinfo] at hbody; cases hbody; exact listedEnd_badInfo hinfo
    | none => simp only [hinfo] at hbody; cases hbody; exact State.finish_listedEnd _ _ _ _
  | validate =>
    simp only [exec, execValidate] at h
    refine State.onIn_listedEnd rfl h noContract fun raw hbody => ?_
    cases hraw : validate raw with
    | error e => simp only [hraw] at hbody; cases hbody; exact validate_error_listedEnd hraw
    | ok p => simp only [hraw] at hbody; cases hbody; exact State.finish_listedEnd _ _ _ _
  | decodeSys =>
    simp only [exec, execDecodeSys] at h
    refine State.onIn_listedEnd rfl h noContract fun p hbody => ?_
    cases hp : decodeSysLayout s.cfg p with
    | error c =>
      simp only [hp] at hbody; cases hbody; exact decodeStop_listedEnd (.inl rfl) rfl hp
    | ok d => simp only [hp] at hbody; cases hbody; exact State.finish_listedEnd _ _ _ _
  | decodeMfr =>
    simp only [exec, execDecodeMfr] at h
    refine State.onIn_listedEnd rfl h noContract fun p hbody => ?_
    cases hp : decodeMfrLayout s.cfg p with
    | error c =>
      simp only [hp] at hbody; cases hbody; exact decodeStop_listedEnd (.inr (.inl rfl)) rfl hp
    | ok d =>
      obtain ⟨fresh, hfresh⟩ := identityOf_isSome hp
      simp only [hp, hfresh] at hbody; cases hbody; exact State.finish_listedEnd _ _ _ _
  | decodeCap =>
    simp only [exec, execDecodeCap] at h
    refine State.onIn_listedEnd rfl h noContract fun p hbody => ?_
    cases hp : decodeCapLayout s.cfg p with
    | error c =>
      simp only [hp] at hbody; cases hbody; exact decodeStop_listedEnd (.inr (.inr (.inl rfl))) rfl hp
    | ok d => simp only [hp] at hbody; cases hbody; exact State.finish_listedEnd _ _ _ _
  | decodeRt =>
    simp only [exec, execDecodeRt] at h
    refine State.onIn_listedEnd rfl h (fun _ => listedEnd_badCellCount) fun p hbody => ?_
    cases hp : decodeRtLayout s.cfg p s.operands.cells.toNat with
    | error c =>
      simp only [hp] at hbody; cases hbody; exact decodeStop_listedEnd (.inr (.inr (.inr rfl))) rfl hp
    | ok d =>
      obtain ⟨regs, hregs, -⟩ := decodedRegs_isSome hp
      simp only [hp, hregs] at hbody; cases hbody; exact State.finish_listedEnd _ _ _ _
  | alarmMap => cases h; exact s.finish_listedEnd _ _ _

end

/-! ## Every operation ends -/

section

variable {i : Instr} {s : State}

/-- R150 (3): `IN` holds a string once every character below `IN_LEN` is written. -/
theorem State.ready.inText (h : s.ready i) (hi : readsIn i = true) : ∃ p, s.inText = some p := by
  have hread : (Memory.readText s.inMem 0 s.operands.inLen.toNat).isSome = true := by
    rw [Memory.readText, mapM_isSome, List.all_eq_true]
    intro a ha
    rw [Nat.zero_add]
    exact h hi a (List.mem_range.1 ha)
  exact Option.isSome_iff_exists.1 hread

/-- R34, R140: an operation that reads `IN` ends if it ends on every string. -/
theorem State.onIn_ends {c : Option Stop} {body : Text → Host.Outcome State Fault Refusal}
    (hi : readsIn i = true) (hready : s.operands.inLen.toNat ≤ inCap → s.ready i)
    (hbody : ∀ p, ∃ t, body p = .next t) : ∃ t, s.onIn c body = .next t := by
  rcases Nat.lt_or_ge inCap s.operands.inLen.toNat with hlong | hlen
  · exact ⟨_, State.onIn_badInLen hlong c body⟩
  · cases c with
    | some e => exact ⟨_, State.onIn_contract hlen e body⟩
    | none =>
      obtain ⟨p, hp⟩ := (hready hlen).inText hi
      rw [State.onIn_run hlen hp body]
      exact hbody p

theorem exec_ends (hready : s.operands.inLen.toNat ≤ inCap → s.ready i) : ∃ t, exec i s = .next t := by
  cases i with
  | pchk =>
    simp only [exec, execPchk]
    exact State.onIn_ends rfl hready fun text => ⟨_, rfl⟩
  | lchk => exact ⟨_, rfl⟩
  | encode =>
    simp only [exec, execEncode]
    refine State.onIn_ends rfl hready fun info => ?_
    cases infoProblem info with
    | some reason => exact ⟨_, rfl⟩
    | none => exact ⟨_, rfl⟩
  | validate =>
    simp only [exec, execValidate]
    exact State.onIn_ends rfl hready fun raw => ⟨_, rfl⟩
  | decodeSys =>
    simp only [exec, execDecodeSys]
    refine State.onIn_ends rfl hready fun p => ?_
    cases decodeSysLayout s.cfg p with
    | error c => exact ⟨_, rfl⟩
    | ok d => exact ⟨_, rfl⟩
  | decodeMfr =>
    simp only [exec, execDecodeMfr]
    refine State.onIn_ends rfl hready fun p => ?_
    cases hp : decodeMfrLayout s.cfg p with
    | error c => exact ⟨_, rfl⟩
    | ok d =>
      obtain ⟨fresh, hfresh⟩ := identityOf_isSome hp
      simp only [hfresh]
      exact ⟨_, rfl⟩
  | decodeCap =>
    simp only [exec, execDecodeCap]
    refine State.onIn_ends rfl hready fun p => ?_
    cases decodeCapLayout s.cfg p with
    | error c => exact ⟨_, rfl⟩
    | ok d => exact ⟨_, rfl⟩
  | decodeRt =>
    simp only [exec, execDecodeRt]
    refine State.onIn_ends rfl hready fun p => ?_
    cases hp : decodeRtLayout s.cfg p s.operands.cells.toNat with
    | error c => exact ⟨_, rfl⟩
    | ok d =>
      obtain ⟨regs, hregs, -⟩ := decodedRegs_isSome hp
      simp only [hregs]
      exact ⟨_, rfl⟩
  | alarmMap => exact ⟨_, rfl⟩

end

end Sys2Proof.Machine

namespace Sys2Proof.Claims

open Sys2Proof Sys2Proof.Machine

/-- Settles O36: a step that does not end OK is a `stop` (`step_failed`), and `stop` writes nothing else. -/
theorem failureWritesNothingElse : Obligations.FailureWritesNothingElse := by
  intro s t h hne
  obtain ⟨e, rfl⟩ := step_failed h hne
  exact s.stop_endsStopped e

/-- Settles O37: an operation finishes, or it stops at `IN_LEN`, at its own contract, or at its string; the
causes of each are listed (`exec_listedEnd`). -/
theorem operationsEndAsListed : Obligations.OperationsEndAsListed :=
  fun _ _ _ => exec_listedEnd

/-- Settles O39: an `IN_LEN` above the capacity and a broken contract are ends too, and on a string every
operation ends, because a decoded layout has every field that its operation looks up (`exec_ends`). -/
theorem everyReadyOperationEnds : Obligations.EveryReadyOperationEnds :=
  fun _ _ => exec_ends

end Sys2Proof.Claims
end

section
/-! PROOFS. Reset by the host (70_reset_and_hazards.md R147 to R149). -/

namespace Sys2Proof.Machine

open Sys2Proof

/-- R147: reset by the host ends in every state, and does nothing besides `State.applyReset`. -/
theorem hostAct_reset (s : State) : hostAct .reset s = .next s.applyReset := rfl

/-- R28, R147: reset by the host leaves no address of `IN` listed, so none holds a character. -/
theorem State.applyReset_inMem_read (s : State) (a : Nat) :
    Memory.read s.applyReset.inMem a = none := by
  rw [State.applyReset_inMem, Memory.read_nil]

end Sys2Proof.Machine

namespace Sys2Proof.Claims

open Sys2Proof Sys2Proof.Machine

/-- Settles O44: the action answers `State.applyReset` (`hostAct_reset`), which takes every field but the
configuration from the reset state. -/
theorem hostResetClearsCache : Obligations.HostResetClearsCache :=
  fun s => ⟨s.applyReset, hostAct_reset s, s.applyReset_mid, s.applyReset_cfg, s.applyReset_results,
    s.applyReset_inMem_read⟩

end Sys2Proof.Claims
end
